-- ==== Sys2Proof/Word.lean ====
section
/-! DEFINITION. The word types of the engine: bytes, 16-bit words, and 4-bit fields used as numbers (spec/00_scope.md R7). -/

namespace Sys2Proof

/-- An 8-bit unsigned value: a general register, a timer, a byte of memory (10_state.md R21, R29, R32). -/
abbrev Byte := BitVec 8

/-- A 16-bit unsigned value: `I`, `PC`, `SP`, a stack entry, an instruction word (10_state.md R24, R26 to R28). -/
abbrev Word := BitVec 16

/-- The number of a general register, 0 to 15 (10_state.md R21). -/
abbrev Reg := Fin 16

/-- A 4-bit field of an instruction word used as a number (30_encoding.md R93). -/
abbrev Nibble := Fin 16

/-- `VF`, the carry, borrow and collision flag (10_state.md R22). -/
def vf : Reg := 15

end Sys2Proof
end

