-- ==== Sys2Proof/Config.lean ====
section
/-! DEFINITION. What an implementation fixes: the sizes of the block (spec/00_scope.md R5), the types of the open
parameters (spec/92_eei_decisions.md, whose values stand in Machine/Parameters.lean), and the one free value. -/

namespace Sys2Proof

/-- Bytes of memory, `MEM_SIZE` (R5). -/
def Config.memSize : Nat := 4096

/-- Load address and reset PC, `PROG_BASE` (R5). -/
def Config.progBase : Nat := 0x200

/-- Longest program `Load` accepts, `MAX_PROG` (R5, R130). -/
def Config.maxProg : Nat := 3584

/-- Entries of the call stack, `STACK_DEPTH` (R5). -/
def Config.stackDepth : Nat := 16

/-- The parameter `VF_WRITE_ORDER` (42_alu.md R183, decision D13). -/
inductive VfWriteOrder where
  | flagLast
  | resultLast
  deriving DecidableEq, Repr

/-- The parameter `SHIFT_SOURCE` (42_alu.md R179, R181, decision D14). -/
inductive ShiftSource where
  | vx
  | vy
  deriving DecidableEq, Repr

/-- The open parameters of 92_eei_decisions.md that are switches. -/
structure Params where
  /-- `SYS_KNOWN` (D3): whether the `0nnn` words are a known no-op. -/
  sysKnown : Bool
  /-- `ADD_CARRY_REFERENCE_QUIRK` (D12): whether `8xy4` always writes 0 to `VF`. -/
  addCarryReferenceQuirk : Bool
  /-- `VF_WRITE_ORDER` (D13). -/
  vfWriteOrder : VfWriteOrder
  /-- `SHIFT_SOURCE` (D14). -/
  shiftSource : ShiftSource
  deriving DecidableEq, Repr

/-- FREE VALUE. The byte that the `k`-th draw of the run supplies to `RND` (42_alu.md R184: "a free input of each
execution of `Cxkk` under no law"). It has no body: nothing can be proved of it. DESIGN CHOICE, log 5. -/
opaque Config.freeByte : Nat → Byte

end Sys2Proof
end

