-- ==== Sys2Proof/Machine/Parameters.lean ====
section
/-! DEFINITION. The values of the spec's open parameters (spec/00_scope.md R5; spec/92_eei_decisions.md, "Open
parameters in one list"), each at the default the spec states. -/

namespace Sys2Proof.Machine

/-- The switches at their stated defaults: `SYS_KNOWN` true (D3), textbook carry (D12), flag last (D13), shift in
place (D14). UNVERIFIED, log 2. -/
def params : Params :=
  { sysKnown := true, addCarryReferenceQuirk := false, vfWriteOrder := .flagLast, shiftSource := .vx }

/-- `FONT_BASE` (D21): the address of glyph 0. UNVERIFIED, log 3. -/
def fontBase : Nat := 0x000

/-- Bytes of one glyph, `GLYPH_SIZE` (R5). -/
def glyphSize : Nat := 5

/-- `FONT_BYTES` (10_state.md R33), one line per glyph. UNVERIFIED (the spec takes them from general knowledge), log 3. -/
def fontBytes : List Byte :=
  [0xF0, 0x90, 0x90, 0x90, 0xF0] ++
  [0x20, 0x60, 0x20, 0x20, 0x70] ++
  [0xF0, 0x10, 0xF0, 0x80, 0xF0] ++
  [0xF0, 0x10, 0xF0, 0x10, 0xF0] ++
  [0x90, 0x90, 0xF0, 0x10, 0x10] ++
  [0xF0, 0x80, 0xF0, 0x10, 0xF0] ++
  [0xF0, 0x80, 0xF0, 0x90, 0xF0] ++
  [0xF0, 0x10, 0x20, 0x40, 0x40] ++
  [0xF0, 0x90, 0xF0, 0x90, 0xF0] ++
  [0xF0, 0x90, 0xF0, 0x10, 0xF0] ++
  [0xF0, 0x90, 0xF0, 0x90, 0x90] ++
  [0xE0, 0x90, 0xE0, 0x90, 0xE0] ++
  [0xF0, 0x80, 0x80, 0x80, 0xF0] ++
  [0xE0, 0x90, 0x90, 0x90, 0xE0] ++
  [0xF0, 0x80, 0xF0, 0x80, 0xF0] ++
  [0xF0, 0x80, 0xF0, 0x80, 0x80]

end Sys2Proof.Machine
end

