-- ==== Sys2Proof/Syntax.lean ====
section
/-! DEFINITION. The 35 instructions of spec/opcode_table.json, one constructor per row. A constructor keeps every
nibble of the word that its key leaves open, also one the handler ignores (the alias spellings of
spec/30_encoding.md R101), so that an instruction stands for exactly one word (log 10). -/

namespace Sys2Proof

/-- An instruction of the engine. The comment on a constructor gives its canonical pattern and its handler's rule. -/
inductive Instr where
  /-- `00E0` `CLS`, R223; `x` is the ignored nibble of the alias `0xE0`. -/
  | cls (x : Nibble)
  /-- `00EE` `RET`, R151; `x` is the ignored nibble of the alias `0xEE`. -/
  | ret (x : Nibble)
  /-- `0nnn` `SYS nnn`, R150. -/
  | sys (nnn : BitVec 12)
  /-- `1nnn` `JP nnn`, R152. -/
  | jp (nnn : BitVec 12)
  /-- `2nnn` `CALL nnn`, R153. -/
  | call (nnn : BitVec 12)
  /-- `3xkk` `SE Vx, kk`, R155. -/
  | seImm (x : Reg) (kk : Byte)
  /-- `4xkk` `SNE Vx, kk`, R156. -/
  | sneImm (x : Reg) (kk : Byte)
  /-- `5xy0` `SE Vx, Vy`, R157; `n` is the ignored nibble of the alias `5xyn`. -/
  | seReg (x y : Reg) (n : Nibble)
  /-- `6xkk` `LD Vx, kk`, R171. -/
  | ldImm (x : Reg) (kk : Byte)
  /-- `7xkk` `ADD Vx, kk`, R172. -/
  | addImm (x : Reg) (kk : Byte)
  /-- `8xy0` `LD Vx, Vy`, R173; `n` is the ignored nibble of the alias `8xyn`, n in 8, 9, A, B, C, D, F. -/
  | ldReg (x y : Reg) (n : Nibble)
  /-- `8xy1` `OR Vx, Vy`, R174. -/
  | orReg (x y : Reg)
  /-- `8xy2` `AND Vx, Vy`, R175. -/
  | andReg (x y : Reg)
  /-- `8xy3` `XOR Vx, Vy`, R176. -/
  | xorReg (x y : Reg)
  /-- `8xy4` `ADD Vx, Vy`, R177. -/
  | addReg (x y : Reg)
  /-- `8xy5` `SUB Vx, Vy`, R178. -/
  | subReg (x y : Reg)
  /-- `8xy6` `SHR Vx`, R179; `y` is read only under `SHIFT_SOURCE = Vy`. -/
  | shr (x y : Reg)
  /-- `8xy7` `SUBN Vx, Vy`, R180. -/
  | subn (x y : Reg)
  /-- `8xyE` `SHL Vx`, R181; `y` is read only under `SHIFT_SOURCE = Vy`. -/
  | shl (x y : Reg)
  /-- `9xy0` `SNE Vx, Vy`, R158; `n` is the ignored nibble of the alias `9xyn`. -/
  | sneReg (x y : Reg) (n : Nibble)
  /-- `Annn` `LD I, nnn`, R200. -/
  | ldI (nnn : BitVec 12)
  /-- `Bnnn` `JP V0, nnn`, R154. -/
  | jpV0 (nnn : BitVec 12)
  /-- `Cxkk` `RND Vx, kk`, R182. -/
  | rnd (x : Reg) (kk : Byte)
  /-- `Dxyn` `DRW Vx, Vy, n`, R225. -/
  | drw (x y : Reg) (n : Nibble)
  /-- `Ex9E` `SKP Vx`, R240. -/
  | skp (x : Reg)
  /-- `ExA1` `SKNP Vx`, R241. -/
  | sknp (x : Reg)
  /-- `Fx07` `LD Vx, DT`, R242; `y` is the ignored nibble of the alias `Fxy7`. -/
  | ldVxDt (x : Reg) (y : Nibble)
  /-- `Fx0A` `LD Vx, K`, R243; `y` is the ignored nibble of the alias `FxyA`. -/
  | ldKey (x : Reg) (y : Nibble)
  /-- `Fx15` `LD DT, Vx`, R244. -/
  | ldDt (x : Reg)
  /-- `Fx18` `LD ST, Vx`, R245. -/
  | ldSt (x : Reg)
  /-- `Fx1E` `ADD I, Vx`, R201. -/
  | addI (x : Reg)
  /-- `Fx29` `LD F, Vx`, R202. -/
  | ldF (x : Reg)
  /-- `Fx33` `LD B, Vx`, R203. -/
  | ldB (x : Reg)
  /-- `Fx55` `LD [I], Vx`, R204. -/
  | storeRegs (x : Reg)
  /-- `Fx65` `LD Vx, [I]`, R205. -/
  | loadRegs (x : Reg)
  deriving DecidableEq, Repr

end Sys2Proof
end

