-- ==== Sys2Proof/WellFormed.lean ====
section
/-! DEFINITION. Which terms of `Instr` stand for a word of their own row (spec/30_encoding.md R98), and which of those
are the canonical spelling (R99). -/

namespace Sys2Proof

/-- The low byte of an `nnn` field. -/
def lowByte (nnn : BitVec 12) : Byte := nnn.extractLsb' 0 8

/-- The final nibbles of an `8xyn` word that reach `LD Vx, Vy` (R98: n in 0, 8, 9, A, B, C, D, F). -/
def ldRegNibbles : List Nibble := [0, 8, 9, 10, 11, 12, 13, 15]

/-- An instruction is well formed when the dispatch of R94 sends the word it stands for to its own row. Two rows give
up words to a tighter tier: `SYS` loses `0xE0` and `0xEE` (to `CLS` and `RET`), `LD Vx, Vy` loses the eight function
nibbles of the arithmetic family (R97). -/
def Instr.wellFormed : Instr → Bool
  | .cls _ => true
  | .ret _ => true
  | .sys nnn => lowByte nnn != 0xE0 && lowByte nnn != 0xEE
  | .jp _ => true
  | .call _ => true
  | .seImm _ _ => true
  | .sneImm _ _ => true
  | .seReg _ _ _ => true
  | .ldImm _ _ => true
  | .addImm _ _ => true
  | .ldReg _ _ n => ldRegNibbles.contains n
  | .orReg _ _ => true
  | .andReg _ _ => true
  | .xorReg _ _ => true
  | .addReg _ _ => true
  | .subReg _ _ => true
  | .shr _ _ => true
  | .subn _ _ => true
  | .shl _ _ => true
  | .sneReg _ _ _ => true
  | .ldI _ => true
  | .jpV0 _ => true
  | .rnd _ _ => true
  | .drw _ _ _ => true
  | .skp _ => true
  | .sknp _ => true
  | .ldVxDt _ _ => true
  | .ldKey _ _ => true
  | .ldDt _ => true
  | .ldSt _ => true
  | .addI _ => true
  | .ldF _ => true
  | .ldB _ => true
  | .storeRegs _ => true
  | .loadRegs _ => true

/-- The canonical spelling (R99): well formed, and the nibbles of R101's alias words are zero. The `y` nibble of the
shifts is part of their canonical pattern `8xy6`, `8xyE` (R98 counts all 256 words). -/
def Instr.canonical : Instr → Bool
  | .cls x => x == 0
  | .ret x => x == 0
  | .seReg _ _ n => n == 0
  | .ldReg _ _ n => n == 0
  | .sneReg _ _ n => n == 0
  | .ldVxDt _ y => y == 0
  | .ldKey _ y => y == 0
  | .sys nnn => (Instr.sys nnn).wellFormed
  | .jp _ => true
  | .call _ => true
  | .seImm _ _ => true
  | .sneImm _ _ => true
  | .ldImm _ _ => true
  | .addImm _ _ => true
  | .orReg _ _ => true
  | .andReg _ _ => true
  | .xorReg _ _ => true
  | .addReg _ _ => true
  | .subReg _ _ => true
  | .shr _ _ => true
  | .subn _ _ => true
  | .shl _ _ => true
  | .ldI _ => true
  | .jpV0 _ => true
  | .rnd _ _ => true
  | .drw _ _ _ => true
  | .skp _ => true
  | .sknp _ => true
  | .ldDt _ => true
  | .ldSt _ => true
  | .addI _ => true
  | .ldF _ => true
  | .ldB _ => true
  | .storeRegs _ => true
  | .loadRegs _ => true

end Sys2Proof
end

