-- ==== Sys2Proof/Decode.lean ====
section
/-! DEFINITION. The instruction decoder and the four-tier dispatch (spec/30_encoding.md), and after them the encoder. -/

namespace Sys2Proof

/-! ### The fields of a word (R91) -/

/-- `op = w[15:12]`. -/
def fieldOp (w : Word) : Nibble := (w.extractLsb' 12 4).toFin

/-- `x = w[11:8]`. -/
def fieldX (w : Word) : Nibble := (w.extractLsb' 8 4).toFin

/-- `y = w[7:4]`. -/
def fieldY (w : Word) : Nibble := (w.extractLsb' 4 4).toFin

/-- `n = w[3:0]`. -/
def fieldN (w : Word) : Nibble := (w.extractLsb' 0 4).toFin

/-- `kk = w[7:0]`. -/
def fieldKk (w : Word) : Byte := w.extractLsb' 0 8

/-- `nnn = w[11:0]`. -/
def fieldNnn (w : Word) : BitVec 12 := w.extractLsb' 0 12

/-! ### The opcode table (R95) -/

/-- One row of the key set `K`: its key, its tier mask, its mnemonic (R106), and how its instruction is made from the
fields of the full word (R94: "the handler receives the fields of rule R91 extracted from the full word `w`"). -/
structure KeyRow where
  key : Word
  tierMask : Word
  name : String
  build : Word → Instr

/-- Rows 1 to 5 and 22 of R95: clear, return, `SYS`, jumps and call. -/
def flowRows : List KeyRow :=
  [⟨0x00E0, 0xF0FF, "CLS", fun w => .cls (fieldX w)⟩,
   ⟨0x00EE, 0xF0FF, "RET", fun w => .ret (fieldX w)⟩,
   ⟨0x1000, 0xF000, "JP nnn", fun w => .jp (fieldNnn w)⟩,
   ⟨0x2000, 0xF000, "CALL nnn", fun w => .call (fieldNnn w)⟩,
   ⟨0xB000, 0xF000, "JP V0, nnn", fun w => .jpV0 (fieldNnn w)⟩]

/-- Row 3 of R95, in the key set when `SYS_KNOWN` is true (R102). -/
def sysRow : KeyRow := ⟨0x0000, 0xF000, "SYS nnn", fun w => .sys (fieldNnn w)⟩

/-- Rows 6 to 8 and 20 of R95: the register-conditional skips. -/
def skipRows : List KeyRow :=
  [⟨0x3000, 0xF000, "SE Vx, kk", fun w => .seImm (fieldX w) (fieldKk w)⟩,
   ⟨0x4000, 0xF000, "SNE Vx, kk", fun w => .sneImm (fieldX w) (fieldKk w)⟩,
   ⟨0x5000, 0xF000, "SE Vx, Vy", fun w => .seReg (fieldX w) (fieldY w) (fieldN w)⟩,
   ⟨0x9000, 0xF000, "SNE Vx, Vy", fun w => .sneReg (fieldX w) (fieldY w) (fieldN w)⟩]

/-- Rows 9 to 19 and 23 of R95: loads, arithmetic, logic, shifts, random. -/
def aluRows : List KeyRow :=
  [⟨0x6000, 0xF000, "LD Vx, kk", fun w => .ldImm (fieldX w) (fieldKk w)⟩,
   ⟨0x7000, 0xF000, "ADD Vx, kk", fun w => .addImm (fieldX w) (fieldKk w)⟩,
   ⟨0x8000, 0xF000, "LD Vx, Vy", fun w => .ldReg (fieldX w) (fieldY w) (fieldN w)⟩,
   ⟨0x8001, 0xF00F, "OR Vx, Vy", fun w => .orReg (fieldX w) (fieldY w)⟩,
   ⟨0x8002, 0xF00F, "AND Vx, Vy", fun w => .andReg (fieldX w) (fieldY w)⟩,
   ⟨0x8003, 0xF00F, "XOR Vx, Vy", fun w => .xorReg (fieldX w) (fieldY w)⟩,
   ⟨0x8004, 0xF00F, "ADD Vx, Vy", fun w => .addReg (fieldX w) (fieldY w)⟩,
   ⟨0x8005, 0xF00F, "SUB Vx, Vy", fun w => .subReg (fieldX w) (fieldY w)⟩,
   ⟨0x8006, 0xF00F, "SHR Vx", fun w => .shr (fieldX w) (fieldY w)⟩,
   ⟨0x8007, 0xF00F, "SUBN Vx, Vy", fun w => .subn (fieldX w) (fieldY w)⟩,
   ⟨0x800E, 0xF00F, "SHL Vx", fun w => .shl (fieldX w) (fieldY w)⟩,
   ⟨0xC000, 0xF000, "RND Vx, kk", fun w => .rnd (fieldX w) (fieldKk w)⟩]

/-- Rows 21, 24 and 31 to 35 of R95: the index register, memory and draw. -/
def memoryRows : List KeyRow :=
  [⟨0xA000, 0xF000, "LD I, nnn", fun w => .ldI (fieldNnn w)⟩,
   ⟨0xD000, 0xF000, "DRW Vx, Vy, n", fun w => .drw (fieldX w) (fieldY w) (fieldN w)⟩,
   ⟨0xF01E, 0xF0FF, "ADD I, Vx", fun w => .addI (fieldX w)⟩,
   ⟨0xF029, 0xF0FF, "LD F, Vx", fun w => .ldF (fieldX w)⟩,
   ⟨0xF033, 0xF0FF, "LD B, Vx", fun w => .ldB (fieldX w)⟩,
   ⟨0xF055, 0xF0FF, "LD [I], Vx", fun w => .storeRegs (fieldX w)⟩,
   ⟨0xF065, 0xF0FF, "LD Vx, [I]", fun w => .loadRegs (fieldX w)⟩]

/-- Rows 25 to 30 of R95: keypad and timers. -/
def deviceRows : List KeyRow :=
  [⟨0xE09E, 0xF0FF, "SKP Vx", fun w => .skp (fieldX w)⟩,
   ⟨0xE0A1, 0xF0FF, "SKNP Vx", fun w => .sknp (fieldX w)⟩,
   ⟨0xF007, 0xF00F, "LD Vx, DT", fun w => .ldVxDt (fieldX w) (fieldY w)⟩,
   ⟨0xF00A, 0xF00F, "LD Vx, K", fun w => .ldKey (fieldX w) (fieldY w)⟩,
   ⟨0xF015, 0xF0FF, "LD DT, Vx", fun w => .ldDt (fieldX w)⟩,
   ⟨0xF018, 0xF0FF, "LD ST, Vx", fun w => .ldSt (fieldX w)⟩]

/-- The key set `K` (R95): one table, held as one replaceable unit (R96). UNVERIFIED key values, log 4. -/
def keyTable : List KeyRow :=
  flowRows ++ (if Machine.params.sysKnown then [sysRow] else []) ++ skipRows ++ aluRows ++ memoryRows ++ deviceRows

/-! ### Dispatch (R94) -/

/-- The row whose key is exactly `k`. -/
def lookupKey (k : Word) : Option KeyRow := keyTable.find? (fun r => r.key == k)

/-- The four lookups in priority order: the word itself, then masked with 0xF0FF, 0xF00F, 0xF000 (R94). -/
def dispatch (w : Word) : Option KeyRow :=
  match lookupKey w with
  | some r => some r
  | none =>
    match lookupKey (w &&& 0xF0FF) with
    | some r => some r
    | none =>
      match lookupKey (w &&& 0xF00F) with
      | some r => some r
      | none => lookupKey (w &&& 0xF000)

/-- The instruction a word stands for; none for an unknown word (R100). -/
def decodeWord (w : Word) : Option Instr := (dispatch w).map (fun r => r.build w)

/-- The Opcode Table's name lookup of the diagnostic view (40_engine_step.md R136): an unknown word has no name. -/
def nameOf (w : Word) : Option String := (dispatch w).map KeyRow.name

/-! ### Decoding bytes (R90, 20_memory.md R62) -/

/-- Why bytes decode to no instruction. -/
inductive DecodeError where
  /-- Fewer than the two bytes of an instruction (R90). -/
  | truncated
  /-- The word matches no key in any tier (R100). -/
  | unknownInstruction (w : Word)
  deriving DecidableEq, Repr

/-- The word of two consecutive bytes: the first is bits [15:8] (20_memory.md R62). -/
def wordOfBytes (b0 b1 : Byte) : Word := (b0 ++ b1 : BitVec (8 + 8))

/-- The two bytes of a word in memory order. -/
def highByte (w : Word) : Byte := w.extractLsb' 8 8

/-- The byte of a word at the higher address. -/
def lowByteOfWord (w : Word) : Byte := w.extractLsb' 0 8

/-- Decode the first instruction of a list of bytes, with the bytes after it. Total: a rejection has a name. -/
def decode : List Byte → Except DecodeError (Instr × List Byte)
  | b0 :: b1 :: rest =>
    match decodeWord (wordOfBytes b0 b1) with
    | some i => .ok (i, rest)
    | none => .error (.unknownInstruction (wordOfBytes b0 b1))
  | [_] => .error .truncated
  | [] => .error .truncated

/-- The bytes a word occupies, in memory order. -/
def bytesOfWord (w : Word) : List Byte := [highByte w, lowByteOfWord w]

/-- The host's question: what the decoder reads from a table word of `nbits` bits (bits above `nbits` are 0). -/
def decodeTableWord (nbits w : Nat) : Option Instr :=
  match decode (bytesOfWord (BitVec.ofNat 16 (w % 2 ^ nbits))) with
  | .ok (i, _) => some i
  | .error _ => none

/-! ### The encoder (R92, R95, R101) -/

/-- The four bits of a field given as a number. -/
def nib (a : Nibble) : BitVec 4 := BitVec.ofFin (w := 4) a

/-- A word from its four nibbles, `op` in bits [15:12]. -/
def wordOfNibbles (op x y n : Nibble) : Word := (nib op ++ nib x ++ nib y ++ nib n : BitVec (4 + 4 + 4 + 4))

/-- Format `A`: an address field (R92). -/
def encA (op : Nibble) (nnn : BitVec 12) : Word := (nib op ++ nnn : BitVec (4 + 12))

/-- Formats `RI` and `RF`: a register and an immediate or function byte (R92). -/
def encRI (op x : Nibble) (kk : Byte) : Word := (nib op ++ nib x ++ kk : BitVec (4 + 4 + 8))

/-- Formats `RR` and `RRN`: two registers and a nibble (R92). -/
def encRR (op x y n : Nibble) : Word := wordOfNibbles op x y n

/-- The word of an instruction. -/
def encode : Instr → Word
  | .cls x => encRI 0x0 x 0xE0
  | .ret x => encRI 0x0 x 0xEE
  | .sys nnn => encA 0x0 nnn
  | .jp nnn => encA 0x1 nnn
  | .call nnn => encA 0x2 nnn
  | .seImm x kk => encRI 0x3 x kk
  | .sneImm x kk => encRI 0x4 x kk
  | .seReg x y n => encRR 0x5 x y n
  | .ldImm x kk => encRI 0x6 x kk
  | .addImm x kk => encRI 0x7 x kk
  | .ldReg x y n => encRR 0x8 x y n
  | .orReg x y => encRR 0x8 x y 0x1
  | .andReg x y => encRR 0x8 x y 0x2
  | .xorReg x y => encRR 0x8 x y 0x3
  | .addReg x y => encRR 0x8 x y 0x4
  | .subReg x y => encRR 0x8 x y 0x5
  | .shr x y => encRR 0x8 x y 0x6
  | .subn x y => encRR 0x8 x y 0x7
  | .shl x y => encRR 0x8 x y 0xE
  | .sneReg x y n => encRR 0x9 x y n
  | .ldI nnn => encA 0xA nnn
  | .jpV0 nnn => encA 0xB nnn
  | .rnd x kk => encRI 0xC x kk
  | .drw x y n => encRR 0xD x y n
  | .skp x => encRI 0xE x 0x9E
  | .sknp x => encRI 0xE x 0xA1
  | .ldVxDt x y => encRR 0xF x y 0x7
  | .ldKey x y => encRR 0xF x y 0xA
  | .ldDt x => encRI 0xF x 0x15
  | .ldSt x => encRI 0xF x 0x18
  | .addI x => encRI 0xF x 0x1E
  | .ldF x => encRI 0xF x 0x29
  | .ldB x => encRI 0xF x 0x33
  | .storeRegs x => encRI 0xF x 0x55
  | .loadRegs x => encRI 0xF x 0x65

/-- The bytes of an instruction in memory order. -/
def encodeBytes (i : Instr) : List Byte := bytesOfWord (encode i)

end Sys2Proof
end

