-- ==== Sys2Proof/Machine/State.lean ====
section
/-! DEFINITION. The state of the engine (spec/10_state.md), as plain data, and its value after a cold reset (R39). -/

namespace Sys2Proof.Machine

/-- The five fatal fault causes (60_exceptions.md R261). They are recorded in the state; none stops the model. -/
inductive FaultCause where
  | stackOverflow
  | stackUnderflow
  | addressOutOfRange
  | fbCoordOutOfRange
  | keyIndexOutOfRange
  deriving DecidableEq, Repr

/-- The fields of `FAULT` while `FAULT.valid = 1` (10_state.md R36). -/
structure FaultRecord where
  cause : FaultCause
  /-- `FAULT.addr`: the address the faulting instruction was fetched from. -/
  addr : Word
  /-- `FAULT.word`: the instruction word; 0 when the fetch itself faulted. -/
  word : Word
  deriving DecidableEq, Repr

/-- One `Unknown(w)` report event: the word and its address (60_exceptions.md R268). -/
structure UnknownReport where
  addr : Word
  word : Word
  deriving DecidableEq, Repr

/-- Memory as a list of (address, byte) pairs in canonical form (`Memory.wf`, Machine/Memory.lean); an unlisted
address reads as its cold-reset byte (log 1). -/
abbrev Memory := List Host.Cell

/-- The pixel grid (10_state.md R34): 32 rows of 64 pixels; true is on. -/
abbrev Framebuffer := Vector (Vector Bool 64) 32

/-- The complete mutable state of the block (10_state.md R20), and the model's own two fields after it. -/
structure State where
  /-- `V[0..15]` (R21). -/
  v : Vector Byte 16
  /-- `I` (R26). -/
  i : Word
  /-- `PC` (R24). -/
  pc : Word
  /-- `SP` (R27): the index of the next free stack entry. -/
  sp : Word
  /-- `STACK[0..15]` (R28). -/
  stack : Vector Word 16
  /-- `DT` (R29). -/
  dt : Byte
  /-- `ST` (R29). -/
  st : Byte
  /-- `KEY[0..15]` (R30): true is pressed. -/
  key : Vector Bool 16
  /-- `WAIT` (R31). -/
  wait : Bool
  /-- `WAIT_REG` (R31). -/
  waitReg : Reg
  /-- `MEM[0..4095]` (R32). -/
  mem : Memory
  /-- `FB[0..31][0..63]` (R34). -/
  fb : Framebuffer
  /-- `FB_CHANGED` (R35). -/
  fbChanged : Bool
  /-- `FAULT` (R36): none when `FAULT.valid = 0` (log 11). -/
  fault : Option FaultRecord
  /-- The model's own: how many bytes `draw8()` has supplied (log 5). -/
  drawCount : Nat
  /-- The model's own: the history of `Unknown` reports, newest first (log 6). -/
  reports : List UnknownReport
  deriving DecidableEq, Repr

/-- Why a step of the model stops. -/
inductive Fault where
  /-- Raised by `RET` and `CALL` when `SP` is above 16. The spec gives `SP` the legal values 0 to 16 (R27) and no run
  reaches another, so there is no entry to read or write. Safe: the model stops where the hardware has no such state
  (DESIGN CHOICE, log 9). -/
  | illegalStackPointer (sp : Word)
  deriving DecidableEq, Repr

/-- Why the model gives no meaning. -/
inductive Refusal where
  /-- Raised by `exec` for an instruction that has no meaning yet. Safe. No arm raises it: all 35 have their meaning. -/
  | notModelled (mnemonic : String)
  deriving DecidableEq, Repr

/-- The state after `ColdReset` (10_state.md R39, 70_reset_and_hazards.md R290): everything zero but `PC = 0x200`,
`FB_CHANGED = 1` and the font, which an unlisted address reads as. -/
def State.reset : State where
  v := Vector.replicate 16 0
  i := 0
  pc := 0x200
  sp := 0
  stack := Vector.replicate 16 0
  dt := 0
  st := 0
  key := Vector.replicate 16 false
  wait := false
  waitReg := 0
  mem := []
  fb := Vector.replicate 32 (Vector.replicate 64 false)
  fbChanged := true
  fault := none
  drawCount := 0
  reports := []

end Sys2Proof.Machine
end

