-- ==== Sys2Proof/Machine/Memory.lean ====
section
/-! DEFINITION. The operations over memory (spec/20_memory.md): reading and writing a byte, ranges of bytes, and the
canonical form that keeps equal memories equal lists. -/

namespace Sys2Proof.Machine

/-- What an address holds after `ColdReset` (10_state.md R33, R39): the font, and zero elsewhere. It is what an address
that the memory list does not name reads as (log 1). -/
def coldByte (a : Nat) : Byte :=
  if fontBase ≤ a ∧ a < fontBase + fontBytes.length then fontBytes.getD (a - fontBase) 0 else 0

/-- `MEM[a]`: what address `a` holds. -/
def Memory.byteAt : Memory → Nat → Byte
  | [], a => coldByte a
  | (k, b) :: m, a => if k = a then b else Memory.byteAt m a

/-- Forget what was written to address `a`. -/
def Memory.erase (m : Memory) (a : Nat) : Memory := m.filter (fun c => c.1 != a)

/-- Put a cell in front of the first cell of a higher address. -/
def Memory.place : Memory → Nat → Byte → Memory
  | [], a, b => [(a, b)]
  | (k, c) :: m, a, b => if a < k then (a, b) :: (k, c) :: m else (k, c) :: Memory.place m a b

/-- `MEM[a] <- b`, keeping the canonical form: the value an unlisted address reads as is not listed. -/
def Memory.setByte (m : Memory) (a : Nat) (b : Byte) : Memory :=
  if b = coldByte a then m.erase a else (m.erase a).place a b

/-- Bytes written at ascending addresses from `base` (R61, R65). -/
def Memory.writeBytes : Memory → Nat → List Byte → Memory
  | m, _, [] => m
  | m, base, b :: bs => Memory.writeBytes (m.setByte base b) (base + 1) bs

/-- The `n` bytes at ascending addresses from `base`. -/
def Memory.readBytes (m : Memory) (base : Nat) : Nat → List Byte
  | 0 => []
  | n + 1 => m.byteAt base :: Memory.readBytes m (base + 1) n

/-- Zero every byte at `base` and above, where the cold-reset contents are zero (70_reset_and_hazards.md R291). -/
def Memory.clearFrom (m : Memory) (base : Nat) : Memory := m.filter (fun c => decide (c.1 < base))

/-- Addresses strictly rising, the first above `low`. -/
def Memory.risingFrom : Nat → Memory → Bool
  | _, [] => true
  | low, (k, _) :: m => decide (low ≤ k) && Memory.risingFrom (k + 1) m

/-- The canonical form: addresses strictly rising, all inside the 4096 bytes, and no cell equal to what an unlisted
address reads as. -/
def Memory.wf (m : Memory) : Bool :=
  Memory.risingFrom 0 m && m.all (fun c => decide (c.1 < Config.memSize) && c.2 != coldByte c.1)

/-- The check of 20_memory.md R63, R66: the `count` byte addresses from `base` are all at most 0xFFF. The sum is an
integer, it does not wrap; no address is checked when there is none. -/
def rangeOk (base : Word) (count : Nat) : Bool := count == 0 || decide (base.toNat + count ≤ Config.memSize)

end Sys2Proof.Machine
end

