-- ==== Sys2Proof/Machine/Operands.lean ====
section
/-! DEFINITION. Operand forms: registers, immediates, the index-relative addresses and what the instructions compute
from an operand (spec/10_state.md R21, spec/30_encoding.md R93, spec/43_index_memory.md). -/

namespace Sys2Proof.Machine

/-- Read `V[r]` (R21: no register is hardwired). -/
def State.reg (s : State) (r : Reg) : Byte := s.v[r]

/-- Write `V[r]` (R21). -/
def State.setReg (s : State) (r : Reg) (b : Byte) : State := { s with v := s.v.set r b }

/-- `zext_16(nnn)` (30_encoding.md R93). -/
def addrOfNnn (nnn : BitVec 12) : Word := nnn.setWidth 16

/-- `zext_16` of a byte (R8). -/
def wordOfByte (b : Byte) : Word := b.setWidth 16

/-- The operand of a shift under `SHIFT_SOURCE` (42_alu.md R179, R181). -/
def State.shiftOperand (s : State) (src : ShiftSource) (x y : Reg) : Byte :=
  match src with
  | .vx => s.reg x
  | .vy => s.reg y

/-- The address of the font glyph of a value's low nibble (43_index_memory.md R202). -/
def glyphAddr (b : Byte) : Word := BitVec.ofNat 16 (fontBase + glyphSize * (b.toNat % 16))

/-- The decimal digits of a value: hundreds, tens, units (43_index_memory.md R203). -/
def bcdDigits (b : Byte) : List Byte :=
  [BitVec.ofNat 8 (b.toNat / 100), BitVec.ofNat 8 (b.toNat / 10 % 10), BitVec.ofNat 8 (b.toNat % 10)]

/-- `V[0], ..., V[x]`, the bytes of a register store (43_index_memory.md R204). -/
def State.regsUpTo (s : State) (x : Reg) : List Byte := s.v.toList.take (x.val + 1)

/-- The registers after `V[i] <- MEM[base + i]` for i in 0 to x (43_index_memory.md R205). -/
def State.loadedRegs (s : State) (x : Reg) : Vector Byte 16 :=
  Vector.ofFn (fun r : Reg => if r ≤ x then s.mem.byteAt (s.i.toNat + r.val) else s.reg r)

/-- The keypad latch entry a register value names; none above 15 (45_keypad_timers.md R240). -/
def State.keyAt (s : State) (k : Byte) : Option Bool := s.key[k.toNat]?

/-- The stack entry of an index; none above 15 (10_state.md R27). -/
def State.stackEntry (s : State) (k : Word) : Option Word := s.stack[k.toNat]?

end Sys2Proof.Machine
end

