-- ==== Sys2Proof/Machine/Flags.lean ====
section
/-! DEFINITION. What the flag instructions leave in `VF` and in which order (spec/10_state.md R22, spec/42_alu.md R170
to R183). -/

namespace Sys2Proof.Machine

/-- A flag as the byte `VF` holds: 1 or 0. -/
def flagByte (f : Bool) : Byte := if f then 1 else 0

/-- Carry-out of `a + b` (R177): 1 if the unwrapped sum exceeds 255. With `ADD_CARRY_REFERENCE_QUIRK` it is always 0. -/
def carryOut (quirk : Bool) (a b : Byte) : Bool := !quirk && decide (255 < a.toNat + b.toNat)

/-- The complement of borrow of `a - b` (R178, R180): 1 if `a >= b`. -/
def notBorrow (a b : Byte) : Bool := decide (b.toNat ≤ a.toNat)

/-- The bit a right shift by one shifts out: bit 0 (R179). -/
def outRight (a : Byte) : Bool := a.getLsbD 0

/-- The bit a left shift by one shifts out: bit 7 (R181). -/
def outLeft (a : Byte) : Bool := a.getLsbD 7

/-- Write the flag register. -/
def State.setFlag (s : State) (f : Bool) : State := s.setReg vf (flagByte f)

/-- Write a result to `V[x]` and a flag to `VF` in the order of `VF_WRITE_ORDER` (R183: the flag last by default, so
that for `x = 15` `VF` ends holding the flag). -/
def State.setResultFlag (s : State) (order : VfWriteOrder) (x : Reg) (r : Byte) (f : Bool) : State :=
  match order with
  | .flagLast => (s.setReg x r).setFlag f
  | .resultLast => (s.setFlag f).setReg x r

end Sys2Proof.Machine
end

