-- ==== Sys2Proof/Machine/Framebuffer.lean ====
section
/-! DEFINITION. The framebuffer compositor (spec/44_display.md): `clear`, `SetPixel` with its single wrap, and the
pixels of a sprite. -/

namespace Sys2Proof.Machine

/-- `FB[y][x]` (10_state.md R34). -/
def Framebuffer.pixel (fb : Framebuffer) (x : Fin 64) (y : Fin 32) : Bool := fb[y][x]

/-- All pixels off (R223). -/
def Framebuffer.blank : Framebuffer := Vector.replicate 32 (Vector.replicate 64 false)

/-- `FB[y][x] <- FB[y][x] xor 1` (R221). -/
def Framebuffer.toggle (fb : Framebuffer) (x : Fin 64) (y : Fin 32) : Framebuffer :=
  fb.set y (fb[y].set x (!fb[y][x]))

/-- The one correction of a coordinate against the grid's width or height (R221): "exactly one correction, never
repeated". -/
def wrapOnce (size : Nat) (c : Int) : Int :=
  if (size : Int) ≤ c then c - size else if c < 0 then c + size else c

/-- The pixel that logical coordinates reach, if any (R222). -/
def gridCoord (x y : Int) : Option (Fin 64 × Fin 32) :=
  if hx : 0 ≤ wrapOnce 64 x ∧ wrapOnce 64 x < 64 then
    if hy : 0 ≤ wrapOnce 32 y ∧ wrapOnce 32 y < 32 then
      some (⟨(wrapOnce 64 x).toNat, by omega⟩, ⟨(wrapOnce 32 y).toNat, by omega⟩)
    else none
  else none

/-- `SetPixel(x, y)` (R221): the grid after the toggle and whether the pixel is now off (a collision); none where the
primitive raises `FbCoordOutOfRange`. It does not set `FB_CHANGED`. -/
def Framebuffer.setPixel (fb : Framebuffer) (x y : Int) : Option (Framebuffer × Bool) :=
  match gridCoord x y with
  | none => none
  | some (px, py) => some (fb.toggle px py, !(fb.toggle px py).pixel px py)

/-- The coordinates of the set bits of one sprite row, most significant bit leftmost (R225). -/
def rowPoints (vx y : Nat) (b : Byte) : List (Int × Int) :=
  (List.range 8).filterMap (fun c => if b.getLsbD (7 - c) then some (((vx + c : Nat) : Int), (y : Int)) else none)

/-- The coordinates of the set bits of a sprite whose first row is at `y` (R225). -/
def spritePoints (vx : Nat) : Nat → List Byte → List (Int × Int)
  | _, [] => []
  | y, b :: bs => rowPoints vx y b ++ spritePoints vx (y + 1) bs

/-- `SetPixel` on each coordinate in turn, gathering collisions; none as soon as one raises (R225: the draw is then
abandoned whole). -/
def Framebuffer.drawPoints : Framebuffer → Bool → List (Int × Int) → Option (Framebuffer × Bool)
  | fb, coll, [] => some (fb, coll)
  | fb, coll, p :: ps =>
    match fb.setPixel p.1 p.2 with
    | none => none
    | some (fb', c) => Framebuffer.drawPoints fb' (coll || c) ps

end Sys2Proof.Machine
end

