-- ==== Sys2Proof/Machine/Ops.lean ====
section
/-! DEFINITION. The named operations the instructions and the step are made of: fault entry and its return (the reset
inside `Load`), skip, the call stack, fetch, advance, tick, report (spec/40_engine_step.md, spec/60_exceptions.md). -/

namespace Sys2Proof.Machine

/-! ### Fault entry and the return from it -/

/-- The code of a fault cause (60_exceptions.md R261). -/
def FaultCause.code : FaultCause → BitVec 3
  | .stackOverflow => 1
  | .stackUnderflow => 2
  | .addressOutOfRange => 3
  | .fbCoordOutOfRange => 4
  | .keyIndexOutOfRange => 5

/-- Taking a fault (60_exceptions.md R262): the record is written and nothing else; no control transfer, no save. -/
def State.enterFault (s : State) (c : FaultCause) (addr word : Word) : State :=
  { s with fault := some { cause := c, addr := addr, word := word } }

/-- A handler's `raise` (R126, R262). The handler runs with `PC = A + 2`, so the instruction's address is `PC - 2`
(DEDUCED, log 12); the instruction word is `encode i` (log 10). None of the handler's writes takes place. -/
def State.raise (s : State) (c : FaultCause) (i : Instr) : State := s.enterFault c (s.pc - 2) (encode i)

/-- A fetch fault (R125, R262): `FAULT.addr = PC`, word 0; `PC` is not advanced. -/
def State.raiseFetch (s : State) : State := s.enterFault .addressOutOfRange s.pc 0

/-- `LoadReset` (70_reset_and_hazards.md R291), which is also the only way out of a fault besides `ColdReset` (R272):
everything as after a cold reset, but `MEM[0x000 .. 0x1FF]` is not touched. The model's own two fields stay
(logs 5, 6). -/
def State.loadReset (s : State) : State :=
  { State.reset with
    mem := s.mem.clearFrom Config.progBase, drawCount := s.drawCount, reports := s.reports }

/-- `FAULT.valid` (10_state.md R36). -/
def State.faultValid (s : State) : Bool := s.fault.isSome

/-- `FAULT.cause`; 0 when there is no fault. -/
def State.faultCode (s : State) : BitVec 3 :=
  match s.fault with
  | some f => f.cause.code
  | none => 0

/-- `FAULT.addr`; 0 when there is no fault. -/
def State.faultAddr (s : State) : Word :=
  match s.fault with
  | some f => f.addr
  | none => 0

/-- `FAULT.word`; 0 when there is no fault. -/
def State.faultWord (s : State) : Word :=
  match s.fault with
  | some f => f.word
  | none => 0

/-! ### Control flow -/

/-- A skip (41_flow.md R159): one more instruction length on the already advanced `PC`, modulo 65536. -/
def State.skipIf (s : State) (c : Bool) : State := if c then { s with pc := s.pc + 2 } else s

/-- `STACK[SP] <- v; SP <- SP + 1` (41_flow.md R153); none when `SP` names no entry. -/
def State.push (s : State) (v : Word) : Option State :=
  if h : s.sp.toNat < 16 then some { s with stack := s.stack.set s.sp.toNat v, sp := s.sp + 1 } else none

/-- `SP <- SP - 1; PC <- STACK[SP]` (41_flow.md R151); none when the new `SP` names no entry. The entry stays. -/
def State.popPc (s : State) : Option State :=
  match s.stackEntry (s.sp - 1) with
  | some v => some { s with sp := s.sp - 1, pc := v }
  | none => none

/-! ### Random byte -/

/-- `V[x] <- draw8() and kk`, taking the next free byte (42_alu.md R182, R184). -/
def State.drawInto (s : State) (x : Reg) (kk : Byte) : State :=
  { s.setReg x (Config.freeByte s.drawCount &&& kk) with drawCount := s.drawCount + 1 }

/-! ### The step -/

/-- Fetch (40_engine_step.md R125): the two bytes at `PC`, high byte first; none when one is above 0xFFF. -/
def State.fetchWord (s : State) : Option Word :=
  if rangeOk s.pc 2 then
    some (wordOfBytes (s.mem.byteAt s.pc.toNat) (s.mem.byteAt (s.pc.toNat + 1)))
  else none

/-- The advance by 2 before the handler (R125). -/
def State.advance (s : State) : State := { s with pc := s.pc + 2 }

/-- One timer's tick (R127): down by 1 if nonzero. -/
def tickByte (t : Byte) : Byte := if t = 0 then 0 else t - 1

/-- The timer tick at the end of a step (R127). -/
def State.tick (s : State) : State := { s with dt := tickByte s.dt, st := tickByte s.st }

/-- `report Unknown(w)` with the word's address (60_exceptions.md R268): an event in the history (log 6). -/
def State.report (s : State) (addr word : Word) : State :=
  { s with reports := { addr := addr, word := word } :: s.reports }

/-- The end of a step whose handler has run: the tick, unless the handler raised a fault (R126, R127). -/
def finishStep : Host.Outcome State Fault Refusal → Host.Outcome State Fault Refusal
  | .next t => .next (if t.faultValid then t else t.tick)
  | .fault r => .fault r
  | .refused r => .refused r

/-- The whole `Step` transaction (R123), over the handlers `run`. -/
def engineStep (run : Instr → State → Host.Outcome State Fault Refusal) (s : State) :
    Host.Outcome State Fault Refusal :=
  if s.faultValid then .next s
  else if s.wait then .next s
  else
    match s.fetchWord with
    | none => .next s.raiseFetch
    | some w =>
      match decodeWord w with
      | none => .next ((s.advance.report s.pc w).tick)
      | some i => finishStep (run i s.advance)

/-- Make `w` the word the next step fetches and runs: the engine neither halted nor blocked, `PC` fetchable (where it
is not, at the entry point 0x200), and the word's two bytes at `PC`. -/
def State.placeWord (s : State) (w : Word) : State :=
  let pc := if rangeOk s.pc 2 then s.pc else 0x200
  { s with pc := pc, wait := false, fault := none, mem := s.mem.writeBytes pc.toNat (bytesOfWord w) }

end Sys2Proof.Machine
end

