-- ==== Sys2Proof/Machine/Alu.lean ====
section
/-! DEFINITION. The meanings of the register load, logic, arithmetic, shift and random instructions (spec/42_alu.md).
Operands are read first; the result is written to `V[x]`, then the flag to `VF` (R183). -/

namespace Sys2Proof.Machine

/-- `LD Vx, kk` (R171). -/
def execLdImm (x : Reg) (kk : Byte) (s : State) : Host.Outcome State Fault Refusal := .next (s.setReg x kk)

/-- `ADD Vx, kk` (R172): modulo 256, no flag. -/
def execAddImm (x : Reg) (kk : Byte) (s : State) : Host.Outcome State Fault Refusal :=
  .next (s.setReg x (s.reg x + kk))

/-- `LD Vx, Vy` (R173). -/
def execLdReg (x y : Reg) (_n : Nibble) (s : State) : Host.Outcome State Fault Refusal :=
  .next (s.setReg x (s.reg y))

/-- `OR Vx, Vy` (R174): `VF` is not touched. -/
def execOrReg (x y : Reg) (s : State) : Host.Outcome State Fault Refusal :=
  .next (s.setReg x (s.reg x ||| s.reg y))

/-- `AND Vx, Vy` (R175): `VF` is not touched. -/
def execAndReg (x y : Reg) (s : State) : Host.Outcome State Fault Refusal :=
  .next (s.setReg x (s.reg x &&& s.reg y))

/-- `XOR Vx, Vy` (R176): `VF` is not touched. -/
def execXorReg (x y : Reg) (s : State) : Host.Outcome State Fault Refusal :=
  .next (s.setReg x (s.reg x ^^^ s.reg y))

/-- `ADD Vx, Vy` (R177): modulo 256, `VF` is the carry-out. -/
def execAddReg (x y : Reg) (s : State) : Host.Outcome State Fault Refusal :=
  .next (s.setResultFlag params.vfWriteOrder x (s.reg x + s.reg y)
    (carryOut params.addCarryReferenceQuirk (s.reg x) (s.reg y)))

/-- `SUB Vx, Vy` (R178): modulo 256, `VF` is 1 when there is no borrow. -/
def execSubReg (x y : Reg) (s : State) : Host.Outcome State Fault Refusal :=
  .next (s.setResultFlag params.vfWriteOrder x (s.reg x - s.reg y) (notBorrow (s.reg x) (s.reg y)))

/-- `SHR Vx` (R179): logical, by one; `VF` is the bit shifted out. -/
def execShr (x y : Reg) (s : State) : Host.Outcome State Fault Refusal :=
  let a := s.shiftOperand params.shiftSource x y
  .next (s.setResultFlag params.vfWriteOrder x (a >>> 1) (outRight a))

/-- `SUBN Vx, Vy` (R180): `V[y] - V[x]` into `V[x]`. -/
def execSubn (x y : Reg) (s : State) : Host.Outcome State Fault Refusal :=
  .next (s.setResultFlag params.vfWriteOrder x (s.reg y - s.reg x) (notBorrow (s.reg y) (s.reg x)))

/-- `SHL Vx` (R181): by one, modulo 256; `VF` is the bit shifted out. -/
def execShl (x y : Reg) (s : State) : Host.Outcome State Fault Refusal :=
  let a := s.shiftOperand params.shiftSource x y
  .next (s.setResultFlag params.vfWriteOrder x (a <<< 1) (outLeft a))

/-- `RND Vx, kk` (R182): a free byte masked with `kk`. -/
def execRnd (x : Reg) (kk : Byte) (s : State) : Host.Outcome State Fault Refusal := .next (s.drawInto x kk)

end Sys2Proof.Machine
end

