-- ==== Sys2Proof/Machine/Display.lean ====
section
/-! DEFINITION. The meanings of clear and draw (spec/44_display.md). -/

namespace Sys2Proof.Machine

/-- `clear()` (R223, R224): every pixel off, contents changed. -/
def State.clearScreen (s : State) : State := { s with fb := Framebuffer.blank, fbChanged := true }

/-- `CLS` (R223). -/
def execCls (_x : Nibble) (s : State) : Host.Outcome State Fault Refusal := .next s.clearScreen

/-- The sprite bytes of a draw: `n` rows from `I` (R225). -/
def State.spriteRows (s : State) (n : Nibble) : List Byte := s.mem.readBytes s.i.toNat n.val

/-- The pixels a draw toggles, as logical coordinates (R225): operands latched from the state before any write. -/
def State.drawTargets (s : State) (x y : Reg) (n : Nibble) : List (Int × Int) :=
  spritePoints (s.reg x).toNat (s.reg y).toNat (s.spriteRows n)

/-- `DRW Vx, Vy, n` (R225): the address check first, then the coordinate check, then the toggles, `VF` set to the
collision and `FB_CHANGED` once. -/
def execDrw (x y : Reg) (n : Nibble) (s : State) : Host.Outcome State Fault Refusal :=
  if rangeOk s.i n.val then
    match s.fb.drawPoints false (s.drawTargets x y n) with
    | some (fb, coll) => .next ({ s with fb := fb, fbChanged := true }.setFlag coll)
    | none => .next (s.raise .fbCoordOutOfRange (.drw x y n))
  else .next (s.raise .addressOutOfRange (.drw x y n))

end Sys2Proof.Machine
end

