-- ==== Sys2Proof/Machine/Flow.lean ====
section
/-! DEFINITION. The meanings of the control-transfer instructions (spec/41_flow.md). Each is the handler: it runs with
`PC = A + 2` (the step has advanced it) and before the tick. -/

namespace Sys2Proof.Machine

/-- `SYS nnn` (R150): no operation. -/
def execSys (_nnn : BitVec 12) (s : State) : Host.Outcome State Fault Refusal := .next s

/-- `RET` (R151). `SP = 0` raises `StackUnderflow` (R264). `SP` above 16 is no legal value: log 9. -/
def execRet (x : Nibble) (s : State) : Host.Outcome State Fault Refusal :=
  if s.sp = 0 then .next (s.raise .stackUnderflow (.ret x))
  else
    match s.popPc with
    | some t => .next t
    | none => .fault (.illegalStackPointer s.sp)

/-- `JP nnn` (R152). -/
def execJp (nnn : BitVec 12) (s : State) : Host.Outcome State Fault Refusal :=
  .next { s with pc := addrOfNnn nnn }

/-- `CALL nnn` (R153): the pushed value is the advanced `PC`. `SP = 16` raises `StackOverflow` (R263). `SP` above 16 is
no legal value: log 9. -/
def execCall (nnn : BitVec 12) (s : State) : Host.Outcome State Fault Refusal :=
  if s.sp = 16 then .next (s.raise .stackOverflow (.call nnn))
  else
    match s.push s.pc with
    | some t => .next { t with pc := addrOfNnn nnn }
    | none => .fault (.illegalStackPointer s.sp)

/-- `JP V0, nnn` (R154): the sum is not masked to 12 bits. -/
def execJpV0 (nnn : BitVec 12) (s : State) : Host.Outcome State Fault Refusal :=
  .next { s with pc := addrOfNnn nnn + wordOfByte (s.reg 0) }

/-- `SE Vx, kk` (R155). -/
def execSeImm (x : Reg) (kk : Byte) (s : State) : Host.Outcome State Fault Refusal :=
  .next (s.skipIf (s.reg x == kk))

/-- `SNE Vx, kk` (R156). -/
def execSneImm (x : Reg) (kk : Byte) (s : State) : Host.Outcome State Fault Refusal :=
  .next (s.skipIf (s.reg x != kk))

/-- `SE Vx, Vy` (R157). -/
def execSeReg (x y : Reg) (_n : Nibble) (s : State) : Host.Outcome State Fault Refusal :=
  .next (s.skipIf (s.reg x == s.reg y))

/-- `SNE Vx, Vy` (R158). -/
def execSneReg (x y : Reg) (_n : Nibble) (s : State) : Host.Outcome State Fault Refusal :=
  .next (s.skipIf (s.reg x != s.reg y))

end Sys2Proof.Machine
end

