-- ==== Sys2Proof/Machine/IndexMemory.lean ====
section
/-! DEFINITION. The meanings of the index-register and memory instructions (spec/43_index_memory.md). The address check
covers every byte before the first write (R206); `I` is unchanged by the three that use it as an address. -/

namespace Sys2Proof.Machine

/-- `LD I, nnn` (R200). -/
def execLdI (nnn : BitVec 12) (s : State) : Host.Outcome State Fault Refusal := .next { s with i := addrOfNnn nnn }

/-- `ADD I, Vx` (R201): modulo 65536, no flag. -/
def execAddI (x : Reg) (s : State) : Host.Outcome State Fault Refusal :=
  .next { s with i := s.i + wordOfByte (s.reg x) }

/-- `LD F, Vx` (R202). -/
def execLdF (x : Reg) (s : State) : Host.Outcome State Fault Refusal := .next { s with i := glyphAddr (s.reg x) }

/-- `LD B, Vx` (R203): three decimal digits at `I`, `I + 1`, `I + 2`. -/
def execLdB (x : Reg) (s : State) : Host.Outcome State Fault Refusal :=
  if rangeOk s.i 3 then .next { s with mem := s.mem.writeBytes s.i.toNat (bcdDigits (s.reg x)) }
  else .next (s.raise .addressOutOfRange (.ldB x))

/-- `LD [I], Vx` (R204): `V0` to `Vx` stored from `I`. -/
def execStoreRegs (x : Reg) (s : State) : Host.Outcome State Fault Refusal :=
  if rangeOk s.i (x.val + 1) then .next { s with mem := s.mem.writeBytes s.i.toNat (s.regsUpTo x) }
  else .next (s.raise .addressOutOfRange (.storeRegs x))

/-- `LD Vx, [I]` (R205): `V0` to `Vx` loaded from `I`. -/
def execLoadRegs (x : Reg) (s : State) : Host.Outcome State Fault Refusal :=
  if rangeOk s.i (x.val + 1) then .next { s with v := s.loadedRegs x }
  else .next (s.raise .addressOutOfRange (.loadRegs x))

end Sys2Proof.Machine
end

