-- ==== Sys2Proof/Machine/KeypadTimers.lean ====
section
/-! DEFINITION. The meanings of the keypad and timer instructions (spec/45_keypad_timers.md). -/

namespace Sys2Proof.Machine

/-- `SKP Vx` (R240): the whole register value is the index; above 15 it names no key. -/
def execSkp (x : Reg) (s : State) : Host.Outcome State Fault Refusal :=
  match s.keyAt (s.reg x) with
  | some pressed => .next (s.skipIf pressed)
  | none => .next (s.raise .keyIndexOutOfRange (.skp x))

/-- `SKNP Vx` (R241). -/
def execSknp (x : Reg) (s : State) : Host.Outcome State Fault Refusal :=
  match s.keyAt (s.reg x) with
  | some pressed => .next (s.skipIf (!pressed))
  | none => .next (s.raise .keyIndexOutOfRange (.sknp x))

/-- `LD Vx, DT` (R242): the value before this step's tick. -/
def execLdVxDt (x : Reg) (_y : Nibble) (s : State) : Host.Outcome State Fault Refusal := .next (s.setReg x s.dt)

/-- `LD Vx, K` (R243): the engine blocks from the next step on; the latch is not looked at. -/
def execLdKey (x : Reg) (_y : Nibble) (s : State) : Host.Outcome State Fault Refusal :=
  .next { s with wait := true, waitReg := x }

/-- `LD DT, Vx` (R244). -/
def execLdDt (x : Reg) (s : State) : Host.Outcome State Fault Refusal := .next { s with dt := s.reg x }

/-- `LD ST, Vx` (R245). -/
def execLdSt (x : Reg) (s : State) : Host.Outcome State Fault Refusal := .next { s with st := s.reg x }

end Sys2Proof.Machine
end

