-- ==== Sys2Proof/Machine/Step.lean ====
section
/-! DEFINITION. One `Step` of the engine (spec/40_engine_step.md R123), and the host's way to place a word where the next
step fetches. -/

namespace Sys2Proof.Machine

/-- One `Step` transaction. -/
def step (s : State) : Host.Outcome State Fault Refusal := engineStep exec s

/-- `s` with the table word `w` of `nbits` bits stored where `step` fetches next (log 8). -/
def State.withFetchWord (s : State) (nbits w : Nat) : State := s.placeWord (BitVec.ofNat 16 (w % 2 ^ nbits))

end Sys2Proof.Machine
end

