-- ==== Sys2Proof/Machine/Transactions.lean ====
section
/-! DEFINITION. The host's transactions (spec/40_engine_step.md R129 to R135) beside the engine's `Step`, and runs of
transactions (R121). -/

namespace Sys2Proof.Machine

/-- `ColdReset()` (R133, 70_reset_and_hazards.md R290): the state of R39's cold column whatever came before. The model's
own two fields go on: the bytes still to be drawn are still free, and the events reported have happened (logs 5, 6). -/
def State.coldReset (s : State) : State := { State.reset with drawCount := s.drawCount, reports := s.reports }

/-- What `Load` returns to the host (R129, R130). -/
inductive LoadResult where
  | ok
  | malformedProgram
  deriving DecidableEq, Repr

/-- `Load(bytes)` (R129): the reset, then the length check, then the bytes from 0x200. -/
def State.load (s : State) (bytes : List Byte) : State × LoadResult :=
  if Config.maxProg < bytes.length then (s.loadReset, .malformedProgram)
  else ({ s.loadReset with mem := s.loadReset.mem.writeBytes Config.progBase bytes }, .ok)

/-- A key code as the byte a key-wait delivers, 0x00 to 0x0F (R131). -/
def keyByte (code : Nibble) : Byte := BitVec.ofNat 8 code.val

/-- `SubmitKey(code, pressed)` (R131): while blocked a press ends the wait and a release does nothing; otherwise the
latch entry is written. -/
def State.submitKey (s : State) (code : Nibble) (pressed : Bool) : State :=
  if s.wait then
    if pressed then { s.setReg s.waitReg (keyByte code) with wait := false } else s
  else { s with key := s.key.set code pressed }

/-- `FrameAck()` (R134). -/
def State.frameAck (s : State) : State := { s with fbChanged := false }

/-- The five transactions (R120). -/
inductive Transaction where
  | step
  | coldReset
  | load (bytes : List Byte)
  | submitKey (code : Nibble) (pressed : Bool)
  | frameAck
  deriving DecidableEq, Repr

/-- One transaction, atomic (R121). -/
def transact (t : Transaction) (s : State) : Host.Outcome State Fault Refusal :=
  match t with
  | .step => step s
  | .coldReset => .next s.coldReset
  | .load bytes => .next (s.load bytes).1
  | .submitKey code pressed => .next (s.submitKey code pressed)
  | .frameAck => .next s.frameAck

/-- A run of transactions in order (R121), up to the model's one stop. -/
def runAll : List Transaction → State → Host.Outcome State Fault Refusal
  | [], s => .next s
  | t :: ts, s =>
    match transact t s with
    | .next s' => runAll ts s'
    | .fault r => .fault r
    | .refused r => .refused r

end Sys2Proof.Machine
end

