-- ==== Sys2Proof/Safety.lean ====
section
/-! DEFINITION. The terms claims are stated in: the invariant of the engine, reachable states, safe runs, and frames. -/

namespace Sys2Proof.Machine

/-- The engine would execute an instruction at the next step: neither halted nor blocked (spec/40_engine_step.md R123). -/
abbrev State.running (s : State) : Prop := s.fault = none ∧ s.wait = false

/-- The invariant of the engine (spec/10_state.md R40, and what follows from the step):
the memory list is canonical; `SP` is 0 to 16 (R40 a); blocked and halted are never both (R40 c); every return address
on the stack is at most 0x1000 (41_flow.md R151); every reported word matches no key (60_exceptions.md R268). -/
abbrev State.Inv (s : State) : Prop :=
  s.mem.wf = true ∧ s.sp.toNat ≤ 16 ∧ ¬(s.wait = true ∧ s.faultValid = true) ∧
  (∀ k : Fin 16, s.stack[k].toNat ≤ 0x1000) ∧ (∀ r ∈ s.reports, decodeWord r.word = none)

/-- A state that some run of transactions from the cold reset reaches (R40, R121). -/
def State.Reachable (s : State) : Prop := ∃ ts, runAll ts State.reset = .next s

/-- A run of transactions that reaches a state in which the engine is not halted: no range condition of
70_reset_and_hazards.md R302 was broken since the last reset. -/
def SafeRun (ts : List Transaction) (s : State) : Prop := ∃ t, runAll ts s = .next t ∧ t.fault = none

/-- What an instruction may change, for frames: a list of registers, a list of memory addresses, and one switch for
each other piece of state. What is not named must stay. -/
structure MayChange where
  regs : List Reg := []
  mem : List Nat := []
  i : Bool := false
  pc : Bool := false
  stack : Bool := false
  dt : Bool := false
  st : Bool := false
  wait : Bool := false
  display : Bool := false
  fault : Bool := false
  draws : Bool := false

/-- The frame: everything that `c` does not name is the same in `t` as in `s`; memory is compared byte by byte. The
keypad latch and the report history are never named: no handler writes them (spec/10_state.md R30, R37). -/
def Frame (c : MayChange) (s t : State) : Prop :=
  (∀ r, r ∉ c.regs → t.reg r = s.reg r) ∧
  (∀ a, a ∉ c.mem → t.mem.byteAt a = s.mem.byteAt a) ∧
  (c.i = false → t.i = s.i) ∧
  (c.pc = false → t.pc = s.pc) ∧
  (c.stack = false → t.sp = s.sp ∧ t.stack = s.stack) ∧
  (c.dt = false → t.dt = s.dt) ∧
  (c.st = false → t.st = s.st) ∧
  (c.wait = false → t.wait = s.wait ∧ t.waitReg = s.waitReg) ∧
  (c.display = false → t.fb = s.fb ∧ t.fbChanged = s.fbChanged) ∧
  (c.fault = false → t.fault = s.fault) ∧
  (c.draws = false → t.drawCount = s.drawCount) ∧
  t.key = s.key ∧ t.reports = s.reports

/-- The addresses `base`, `base + 1`, ..., `base + n - 1`. -/
def addresses (base n : Nat) : List Nat := (List.range n).map (fun k => base + k)

/-- A step of `s` fetches the word `w`: the engine runs, both bytes at `PC` exist, and `w` is those bytes with the byte
at `PC` as its high half (spec/40_engine_step.md R125, spec/20_memory.md R62). -/
def FetchesWord (s : State) (w : Word) : Prop :=
  s.running ∧ s.pc.toNat ≤ 0xFFE ∧
    w.toNat = (s.mem.byteAt s.pc.toNat).toNat * 256 + (s.mem.byteAt (s.pc.toNat + 1)).toNat

/-- Every word that has the bits of `key` under `mask` decodes to `build` of it (spec/30_encoding.md R94, R98). -/
def DecodesAs (mask key : Word) (build : Word → Instr) : Prop :=
  ∀ w, w &&& mask = key → decodeWord w = some (build w)

/-- The handler of `i` enters the fatal fault of a code of spec/60_exceptions.md R261, as R262 describes it on the
handler's state (`PC = A + 2`): the record names the code, the address and the word, and nothing else changes. -/
def EntersFault (i : Instr) (s : State) (code : Nat) : Prop :=
  ∃ t, exec i s = .next t ∧ t.faultValid = true ∧ t.faultCode.toNat = code ∧ t.faultAddr = s.pc - 2 ∧
    t.faultWord = encode i ∧ Frame { fault := true } s t

/-- Everything but memory and the model's own fields is as both resets leave it (spec/10_state.md R39). -/
def AtReset (t : State) : Prop :=
  (∀ r, t.reg r = 0) ∧ t.i = 0 ∧ t.pc = 0x200 ∧ t.sp = 0 ∧ (∀ k : Fin 16, t.stack[k] = 0) ∧ t.dt = 0 ∧ t.st = 0 ∧
  (∀ k : Fin 16, t.key[k] = false) ∧ t.wait = false ∧ t.waitReg = 0 ∧ t.faultValid = false ∧ t.faultCode = 0 ∧
  t.faultAddr = 0 ∧ t.faultWord = 0 ∧ (∀ x y, t.fb.pixel x y = false) ∧ t.fbChanged = true

/-- Row `r`, column `c` (0 leftmost) of the sprite that a draw of `n` rows reads at `I` is set (spec/44_display.md
R225). -/
def SpriteBit (s : State) (n : Nibble) (r c : Nat) : Prop :=
  r < n.val ∧ c < 8 ∧ (s.mem.byteAt (s.i.toNat + r)).getLsbD (7 - c) = true

/-- The draw toggles pixel (`px`, `py`): a set sprite bit lands there after the wrap (spec/44_display.md R222, R225). -/
def Touches (s : State) (x y : Reg) (n : Nibble) (px : Fin 64) (py : Fin 32) : Prop :=
  ∃ r c, SpriteBit s n r c ∧ ((s.reg x).toNat + c) % 64 = px.val ∧ ((s.reg y).toNat + r) % 32 = py.val

/-- The sprite's bytes all have an address of memory (spec/44_display.md R225, the first check). -/
def SpriteReadable (s : State) (n : Nibble) : Prop := n.val = 0 ∨ s.i.toNat + n.val - 1 ≤ 0xFFF

/-- Every set bit of the sprite lands within the reach of the single wrap (spec/44_display.md R225, the second
check). -/
def SpriteOnGrid (s : State) (x y : Reg) (n : Nibble) : Prop :=
  ∀ r c, SpriteBit s n r c → (s.reg x).toNat + c ≤ 127 ∧ (s.reg y).toNat + r ≤ 63

/-- The registers an instruction's handler may write (spec/10_state.md R23: the columns `Vx` and `VF`; the write of
`Fx0A` comes later, from `SubmitKey`). -/
def destinations : Instr → List Reg
  | .cls _ => []
  | .ret _ => []
  | .sys _ => []
  | .jp _ => []
  | .call _ => []
  | .seImm _ _ => []
  | .sneImm _ _ => []
  | .seReg _ _ _ => []
  | .ldImm x _ => [x]
  | .addImm x _ => [x]
  | .ldReg x _ _ => [x]
  | .orReg x _ => [x]
  | .andReg x _ => [x]
  | .xorReg x _ => [x]
  | .addReg x _ => [x, vf]
  | .subReg x _ => [x, vf]
  | .shr x _ => [x, vf]
  | .subn x _ => [x, vf]
  | .shl x _ => [x, vf]
  | .sneReg _ _ _ => []
  | .ldI _ => []
  | .jpV0 _ => []
  | .rnd x _ => [x]
  | .drw _ _ _ => [vf]
  | .skp _ => []
  | .sknp _ => []
  | .ldVxDt x _ => [x]
  | .ldKey _ _ => []
  | .ldDt _ => []
  | .ldSt _ => []
  | .addI _ => []
  | .ldF _ => []
  | .ldB _ => []
  | .storeRegs _ => []
  | .loadRegs x => (List.finRange 16).filter (fun r => decide (r ≤ x))

end Sys2Proof.Machine
end

