-- ==== Sys2Proof/Certificates/Slice0/Obligations.lean ====
section
/-! DEFINITION. The statements for the provers, in the order of the spec: reset and host, decoding, the step, the
invariants, then the instructions family by family, then rules about the whole machine. -/

section

open Sys2Proof Sys2Proof.Machine

/-- R290: `ColdReset` zeroes memory, writes the font and performs the load reset, whatever the state before; `State.reset`
is that state. The zeros of 0x050 to 0x1FF are the ones R290 decides (log 1, DEDUCED), the font bytes are those of R33
(log 3, UNVERIFIED). The model's own two fields are no part of it (logs 5, 6, 14). -/
def Obligations.ColdResetLeavesTheColdState : Prop :=
  (∀ s : State, AtReset s.coldReset ∧
    ∀ a, a < 4096 → s.coldReset.mem.byteAt a = if a < 80 then fontBytes.getD a 0 else 0) ∧
  AtReset State.reset ∧
  (∀ a, a < 4096 → State.reset.mem.byteAt a = if a < 80 then fontBytes.getD a 0 else 0)

/-- The table of 10_state.md R33, glyph by glyph. The spec marks the values as general knowledge (log 3). -/
def Obligations.FontGlyphsAfterReset : Prop :=
  State.reset.mem.readBytes 0x000 5 = [0xF0, 0x90, 0x90, 0x90, 0xF0] ∧
  State.reset.mem.readBytes 0x005 5 = [0x20, 0x60, 0x20, 0x20, 0x70] ∧
  State.reset.mem.readBytes 0x00A 5 = [0xF0, 0x10, 0xF0, 0x80, 0xF0] ∧
  State.reset.mem.readBytes 0x00F 5 = [0xF0, 0x10, 0xF0, 0x10, 0xF0] ∧
  State.reset.mem.readBytes 0x014 5 = [0x90, 0x90, 0xF0, 0x10, 0x10] ∧
  State.reset.mem.readBytes 0x019 5 = [0xF0, 0x80, 0xF0, 0x10, 0xF0] ∧
  State.reset.mem.readBytes 0x01E 5 = [0xF0, 0x80, 0xF0, 0x90, 0xF0] ∧
  State.reset.mem.readBytes 0x023 5 = [0xF0, 0x10, 0x20, 0x40, 0x40] ∧
  State.reset.mem.readBytes 0x028 5 = [0xF0, 0x90, 0xF0, 0x90, 0xF0] ∧
  State.reset.mem.readBytes 0x02D 5 = [0xF0, 0x90, 0xF0, 0x10, 0xF0] ∧
  State.reset.mem.readBytes 0x032 5 = [0xF0, 0x90, 0xF0, 0x90, 0x90] ∧
  State.reset.mem.readBytes 0x037 5 = [0xE0, 0x90, 0xE0, 0x90, 0xE0] ∧
  State.reset.mem.readBytes 0x03C 5 = [0xF0, 0x80, 0x80, 0x80, 0xF0] ∧
  State.reset.mem.readBytes 0x041 5 = [0xE0, 0x90, 0x90, 0x90, 0xE0] ∧
  State.reset.mem.readBytes 0x046 5 = [0xF0, 0x80, 0xF0, 0x80, 0xF0] ∧
  State.reset.mem.readBytes 0x04B 5 = [0xF0, 0x80, 0xF0, 0x80, 0x80]

/-- R129: what holds after a successful `Load`, from any state, for any program that fits (the empty one too). -/
def Obligations.LoadPlacesTheProgram : Prop :=
  ∀ (s : State) (bytes : List Byte), bytes.length ≤ 3584 →
    (s.load bytes).2 = .ok ∧ AtReset (s.load bytes).1 ∧
    (∀ k, k < bytes.length → (s.load bytes).1.mem.byteAt (0x200 + k) = bytes.getD k 0) ∧
    (∀ a, 0x200 + bytes.length ≤ a → a ≤ 0xFFF → (s.load bytes).1.mem.byteAt a = 0) ∧
    (∀ a, a < 0x200 → (s.load bytes).1.mem.byteAt a = s.mem.byteAt a)

/-- R291: what `LoadReset` leaves. R130, R269: a `Load` of more than 3584 bytes returns `MalformedProgram`, and the state
is the one `LoadReset` leaves, with `FAULT` clear. -/
def Obligations.TooLongLoadLeavesTheResetState : Prop :=
  (∀ s : State, AtReset s.loadReset ∧ (∀ a, 0x200 ≤ a → a ≤ 0xFFF → s.loadReset.mem.byteAt a = 0) ∧
    (∀ a, a < 0x200 → s.loadReset.mem.byteAt a = s.mem.byteAt a)) ∧
  (∀ (s : State) (bytes : List Byte), 3584 < bytes.length →
    (s.load bytes).2 = .malformedProgram ∧ (s.load bytes).1 = s.loadReset)

/-- R131, its three cases. -/
def Obligations.SubmitKeyActs : Prop :=
  ∀ (s : State) (code : Fin 16) (pressed : Bool),
    (s.wait = true → pressed = true →
      ((s.submitKey code pressed).reg s.waitReg).toNat = code.val ∧ (s.submitKey code pressed).wait = false ∧
      (s.submitKey code pressed).waitReg = s.waitReg ∧
      Frame { regs := [s.waitReg], wait := true } s (s.submitKey code pressed)) ∧
    (s.wait = true → pressed = false → s.submitKey code pressed = s) ∧
    (s.wait = false →
      (s.submitKey code pressed).key[code] = pressed ∧
      (∀ k : Fin 16, k ≠ code → (s.submitKey code pressed).key[k] = s.key[k]) ∧
      { s.submitKey code pressed with key := s.key } = s)

/-- R134. -/
def Obligations.FrameAckClearsTheChangedFlag : Prop :=
  ∀ s : State, s.frameAck.fbChanged = false ∧ { s.frameAck with fbChanged := s.fbChanged } = s

/-- R135. -/
def Obligations.HostActsWhateverTheFault : Prop :=
  (∀ (s : State) (f : Option FaultRecord) (code : Fin 16) (pressed : Bool),
    { s with fault := f }.submitKey code pressed = { s.submitKey code pressed with fault := f } ∧
    { s with fault := f }.frameAck = { s.frameAck with fault := f }) ∧
  (∀ (s : State) (bytes : List Byte),
    (s.load bytes).1.wait = false ∧ (s.load bytes).1.faultValid = false ∧
    s.coldReset.wait = false ∧ s.coldReset.faultValid = false)

/-- R272: "The only recovery is `Load` or `ColdReset`"; R279 (b). -/
def Obligations.OnlyAResetEndsAFault : Prop :=
  ∀ (ts : List Transaction) (s : State), s.faultValid = true →
    (∀ x ∈ ts, x ≠ .coldReset ∧ ∀ bytes, x ≠ .load bytes) →
    ∃ t, runAll ts s = .next t ∧ t.fault = s.fault ∧ t.pc = s.pc ∧ t.sp = s.sp ∧ t.stack = s.stack ∧ t.i = s.i ∧
      t.mem = s.mem ∧ t.dt = s.dt ∧ t.st = s.st

/-- Words from the examples of the spec and its vectors: flow, skips, arithmetic, memory, display, keypad, and an unknown
word. -/
def Obligations.SampleWordsDecode : Prop :=
  decodeWord 0x00E0 = some (.cls 0) ∧ decodeWord 0x00EE = some (.ret 0) ∧ decodeWord 0x0123 = some (.sys 0x123) ∧
  decodeWord 0x1228 = some (.jp 0x228) ∧ decodeWord 0x2ABC = some (.call 0xABC) ∧
  decodeWord 0x3A7F = some (.seImm 0xA 0x7F) ∧ decodeWord 0x9AB0 = some (.sneReg 0xA 0xB 0) ∧
  decodeWord 0x6005 = some (.ldImm 0 5) ∧ decodeWord 0x7002 = some (.addImm 0 2) ∧
  decodeWord 0x8014 = some (.addReg 0 1) ∧ decodeWord 0x8AB6 = some (.shr 0xA 0xB) ∧
  decodeWord 0xA2F0 = some (.ldI 0x2F0) ∧ decodeWord 0xF333 = some (.ldB 3) ∧
  decodeWord 0xF255 = some (.storeRegs 2) ∧ decodeWord 0xD015 = some (.drw 0 1 5) ∧
  decodeWord 0xE29E = some (.skp 2) ∧ decodeWord 0xF50A = some (.ldKey 5 0) ∧
  decodeWord 0xF115 = some (.ldDt 1) ∧ decodeWord 0xE000 = none

/-- R91, bit by bit. -/
def Obligations.DecoderExtractsTheFields : Prop :=
  ∀ (w : Word) (k : Nat),
    (k < 4 → (fieldOp w).val.testBit k = w.getLsbD (12 + k)) ∧
    (k < 4 → (fieldX w).val.testBit k = w.getLsbD (8 + k)) ∧
    (k < 4 → (fieldY w).val.testBit k = w.getLsbD (4 + k)) ∧
    (k < 4 → (fieldN w).val.testBit k = w.getLsbD k) ∧
    (k < 8 → (fieldKk w).getLsbD k = w.getLsbD k) ∧
    (k < 12 → (fieldNnn w).getLsbD k = w.getLsbD k)

/-- The round trip over all 35 constructors and all operands. -/
def Obligations.DecodeOfEncodeIsTheInstruction : Prop :=
  ∀ i : Instr, i.wellFormed = true →
    decodeWord (encode i) = some i ∧ ∀ rest, decode (encodeBytes i ++ rest) = .ok (i, rest)

/-- The other direction of the round trip; it is what makes `FAULT.word` the fetched word (log 10). -/
def Obligations.EncodeOfDecodeIsTheWord : Prop :=
  ∀ (w : Word) (i : Instr), decodeWord w = some i → encode i = w ∧ i.wellFormed = true

/-- R97, the equivalent decode rule: the masks are nested, so the mask of most bits is the largest one. -/
def Obligations.MostSpecificKeyWins : Prop :=
  ∀ w : Word,
    (∀ r, dispatch w = some r ↔
      r ∈ keyTable ∧ w &&& r.tierMask = r.key ∧
      ∀ r' ∈ keyTable, w &&& r'.tierMask = r'.key → r'.tierMask.toNat ≤ r.tierMask.toNat) ∧
    (dispatch w = none ↔ ∀ r ∈ keyTable, w &&& r.tierMask ≠ r.key)

/-- The last row of R98, as an equivalence over all words. -/
def Obligations.UnknownWordsAreExactlyTheListed : Prop :=
  ∀ w : Word, decodeWord w = none ↔
    (w.toNat / 4096 = 0xE ∧ w.toNat % 256 ≠ 0x9E ∧ w.toNat % 256 ≠ 0xA1) ∨
    (w.toNat / 4096 = 0xF ∧ w.toNat % 256 ∉ [0x15, 0x18, 0x1E, 0x29, 0x33, 0x55, 0x65] ∧
      w.toNat % 16 ≠ 7 ∧ w.toNat % 16 ≠ 0xA)

/-- The seven rows of R101. -/
def Obligations.AliasWordsRunAsTheNamedInstruction : Prop :=
  (∀ x : Nibble, x ≠ 0 →
    decodeWord (wordOfNibbles 0 x 0xE 0) = some (.cls x) ∧ (Instr.cls x).canonical = false ∧
    decodeWord (wordOfNibbles 0 x 0xE 0xE) = some (.ret x) ∧ (Instr.ret x).canonical = false) ∧
  (∀ x y n : Nibble, n ≠ 0 →
    decodeWord (wordOfNibbles 5 x y n) = some (.seReg x y n) ∧ (Instr.seReg x y n).canonical = false ∧
    decodeWord (wordOfNibbles 9 x y n) = some (.sneReg x y n) ∧ (Instr.sneReg x y n).canonical = false) ∧
  (∀ x y n : Nibble, n.val ∈ [8, 9, 0xA, 0xB, 0xC, 0xD, 0xF] →
    decodeWord (wordOfNibbles 8 x y n) = some (.ldReg x y n) ∧ (Instr.ldReg x y n).canonical = false) ∧
  (∀ x y : Nibble, y ≠ 0 →
    decodeWord (wordOfNibbles 0xF x y 7) = some (.ldVxDt x y) ∧ (Instr.ldVxDt x y).canonical = false ∧
    decodeWord (wordOfNibbles 0xF x y 0xA) = some (.ldKey x y) ∧ (Instr.ldKey x y).canonical = false)

/-- R123, branch by branch. The first branch of a fetched word is the bridge from `exec` to `step`. Two clauses are the
model's choice: that a stop of `exec` is the stop of `step` (DESIGN CHOICE, log 9), and that the report is an event in the
history, the model's own field (DESIGN CHOICE, log 6; R268 says the report is not stored). -/
def Obligations.StepRunsTheDecodedInstruction : Prop :=
  ∀ s : State,
    (s.faultValid = true → step s = .next s) ∧
    (s.wait = true → step s = .next s) ∧
    (s.running → 0xFFE < s.pc.toNat → step s = .next { s with fault := some ⟨.addressOutOfRange, s.pc, 0⟩ }) ∧
    (∀ w, FetchesWord s w →
      (∀ i u, decodeWord w = some i → exec i { s with pc := s.pc + 2 } = .next u →
        (u.faultValid = true → step s = .next u) ∧
        (u.faultValid = false → step s = .next { u with
          dt := if u.dt = 0 then u.dt else u.dt - 1, st := if u.st = 0 then u.st else u.st - 1 })) ∧
      (∀ i r, decodeWord w = some i → exec i { s with pc := s.pc + 2 } = .fault r → step s = .fault r) ∧
      (decodeWord w = none → step s = .next { s with
        pc := s.pc + 2, reports := ⟨s.pc, w⟩ :: s.reports,
        dt := if s.dt = 0 then s.dt else s.dt - 1, st := if s.st = 0 then s.st else s.st - 1 }))

/-- R125: the fetch fault, and the advance that every fetched word gets before its handler runs. -/
def Obligations.FetchFaultsAboveFFEAndAdvancesBelow : Prop :=
  (∀ s : State, s.running → 0xFFE < s.pc.toNat →
    ∃ t, step s = .next t ∧ t.faultValid = true ∧ t.faultCode.toNat = 3 ∧ t.faultAddr = s.pc ∧ t.faultWord = 0 ∧
      Frame { fault := true } s t) ∧
  (∀ s : State, s.running → s.pc.toNat ≤ 0xFFE →
    ∃ w, FetchesWord s w ∧
      (decodeWord w = none → ∃ t, step s = .next t ∧ t.pc.toNat = (s.pc.toNat + 2) % 65536) ∧
      (∀ i u, decodeWord w = some i → exec i { s with pc := s.pc + 2 } = .next u →
        ∃ t, step s = .next t ∧ t.pc = u.pc))

/-- R124, for any number of steps. -/
def Obligations.StepsAreNoOpsWhileBlockedOrHalted : Prop :=
  ∀ (s : State) (n : Nat), s.wait = true ∨ s.faultValid = true →
    step s = .next s ∧ runAll (List.replicate n .step) s = .next s

/-- R128 and R268. The history of reports is the model's own field (DESIGN CHOICE, log 6). -/
def Obligations.UnknownWordIsReportedAndSkipped : Prop :=
  ∀ (s : State) (w : Word), FetchesWord s w → decodeWord w = none →
    ∃ t, step s = .next t ∧ t.reports = ⟨s.pc, w⟩ :: s.reports ∧ t.pc.toNat = (s.pc.toNat + 2) % 65536 ∧
      t.dt.toNat = s.dt.toNat - 1 ∧ t.st.toNat = s.st.toNat - 1 ∧
      { t with pc := s.pc, dt := s.dt, st := s.st, reports := s.reports } = s

/-- R126 and R262, for all 35 handlers at once: `A` is the fetch address, `w` the fetched word. -/
def Obligations.FaultsArePrecise : Prop :=
  (∀ (s : State) (w : Word) (i : Instr) (u : State),
    FetchesWord s w → decodeWord w = some i → exec i { s with pc := s.pc + 2 } = .next u → u.faultValid = true →
    step s = .next u ∧ ∃ c, u = { s with pc := s.pc + 2, fault := some ⟨c, s.pc, w⟩ }) ∧
  (∀ s : State, s.running → 0xFFE < s.pc.toNat →
    step s = .next { s with fault := some ⟨.addressOutOfRange, s.pc, 0⟩ })

/-- The table of R261 as equivalences, with the priority of R270 for `DRW`. -/
def Obligations.EachFaultHasExactlyItsCondition : Prop :=
  ∀ (s : State) (w : Word) (i : Instr) (t : State),
    FetchesWord s w → decodeWord w = some i → step s = .next t →
    (t.faultCode.toNat = 1 ↔ (∃ nnn, i = .call nnn) ∧ s.sp.toNat = 16) ∧
    (t.faultCode.toNat = 2 ↔ (∃ x, i = .ret x) ∧ s.sp.toNat = 0) ∧
    (t.faultCode.toNat = 3 ↔ (∃ x y n, i = .drw x y n ∧ ¬SpriteReadable s n) ∨
      (∃ x, i = .ldB x ∧ 0xFFF < s.i.toNat + 2) ∨
      (∃ x, (i = .storeRegs x ∨ i = .loadRegs x) ∧ 0xFFF < s.i.toNat + x.val)) ∧
    (t.faultCode.toNat = 4 ↔ ∃ x y n, i = .drw x y n ∧ SpriteReadable s n ∧ ¬SpriteOnGrid s x y n) ∧
    (t.faultCode.toNat = 5 ↔ ∃ x, (i = .skp x ∨ i = .sknp x) ∧ 15 < (s.reg x).toNat)

/-- R127. The tick follows the handler, so it acts on a value that `Fx15` or `Fx18` has just written. -/
def Obligations.TimersTickOncePerExecutedStep : Prop :=
  (∀ (s : State) (w : Word) (t : State), FetchesWord s w → step s = .next t →
    (t.faultValid = true → t.dt = s.dt ∧ t.st = s.st) ∧
    (t.faultValid = false →
      (∀ x, decodeWord w = some (.ldDt x) → t.dt.toNat = (s.reg x).toNat - 1) ∧
      ((∀ x, decodeWord w ≠ some (.ldDt x)) → t.dt.toNat = s.dt.toNat - 1) ∧
      (∀ x, decodeWord w = some (.ldSt x) → t.st.toNat = (s.reg x).toNat - 1) ∧
      ((∀ x, decodeWord w ≠ some (.ldSt x)) → t.st.toNat = s.st.toNat - 1) ∧
      (∀ x y, decodeWord w = some (.ldVxDt x y) → t.reg x = s.dt))) ∧
  (∀ (s t : State), ¬s.running → step s = .next t → t.dt = s.dt ∧ t.st = s.st) ∧
  (∀ (s t : State), s.running → 0xFFE < s.pc.toNat → step s = .next t → t.dt = s.dt ∧ t.st = s.st) ∧
  (∀ (s : State) (code : Fin 16) (pressed : Bool),
    (s.submitKey code pressed).dt = s.dt ∧ (s.submitKey code pressed).st = s.st ∧
    s.frameAck.dt = s.dt ∧ s.frameAck.st = s.st)

/-- The base case of the invariant `State.Inv`. -/
def Obligations.ResetMeetsTheInvariant : Prop :=
  State.reset.Inv

/-- R40 (a) and (c), the bound on return addresses of R151, and the canonical form of memory (log 1), kept by every step
from every state that has them. -/
def Obligations.EveryStepKeepsTheInvariant : Prop :=
  ∀ s t : State, s.Inv → step s = .next t → t.Inv

/-- R40 for the transactions of the host. -/
def Obligations.HostTransactionsKeepTheInvariant : Prop :=
  ∀ s : State, s.Inv →
    s.coldReset.Inv ∧ (∀ bytes, (s.load bytes).1.Inv) ∧ (∀ code pressed, (s.submitKey code pressed).Inv) ∧
      s.frameAck.Inv

/-- R137: "the engine has no terminal state"; the model's one stop needs an illegal `SP` (log 9). -/
def Obligations.StepAlwaysAnswersANextState : Prop :=
  ∀ s : State, s.sp.toNat ≤ 16 → ∃ t, step s = .next t

/-- R121: "Any finite or infinite sequence of transactions, in any order, is an execution". Runs from reset only; for every
state it is `StepAlwaysAnswersANextState` with the two statements that keep the invariant. -/
def Obligations.EveryRunFromResetIsAnswered : Prop :=
  ∀ ts : List Transaction, ∃ s, runAll ts State.reset = .next s

/-- R40 (a), (c) and the remark of R151 on entries. Runs from reset only; the statements about every state are
`EveryStepKeepsTheInvariant` and `HostTransactionsKeepTheInvariant`. -/
def Obligations.ReachableStatesMeetTheStatedInvariants : Prop :=
  ∀ s : State, s.Reachable →
    s.sp.toNat ≤ 16 ∧ ¬(s.wait = true ∧ s.faultValid = true) ∧ ∀ k : Fin 16, s.stack[k].toNat ≤ 0x1000

/-- R27 gives `SP` the legal values 0 to 16. What `CALL` and `RET` do at another value is the model's choice
(DESIGN CHOICE, log 9). The other 33 instructions answer a next state whatever `SP` is. -/
def Obligations.StopsOnlyAtAnIllegalStackPointer : Prop :=
  (∀ (s : State) (x : Nibble) (nnn : BitVec 12), 16 < s.sp.toNat →
    exec (.ret x) s = .fault (.illegalStackPointer s.sp) ∧
    exec (.call nnn) s = .fault (.illegalStackPointer s.sp)) ∧
  (∀ (i : Instr) (s : State), s.sp.toNat ≤ 16 → ∃ t, exec i s = .next t) ∧
  (∀ (i : Instr) (s : State), (∀ x, i ≠ .ret x) → (∀ nnn, i ≠ .call nnn) → ∃ t, exec i s = .next t)

/-- R150, with `SYS_KNOWN` at its stated default (log 2). -/
def Obligations.SysDoesNothing : Prop :=
  (∀ w : Word, w &&& 0xF000 = 0 → w &&& 0x00FF ≠ 0xE0 → w &&& 0x00FF ≠ 0xEE →
    decodeWord w = some (.sys (fieldNnn w))) ∧
  (∀ (nnn : BitVec 12) (s : State), exec (.sys nnn) s = .next s)

/-- R151 and R264. The popped entry stays in `STACK`. -/
def Obligations.RetPopsTheReturnAddress : Prop :=
  DecodesAs 0xF0FF 0x00EE (fun w => .ret (fieldX w)) ∧
  ∀ (x : Nibble) (s : State),
    (∀ k : Fin 16, s.sp.toNat = k.val + 1 →
      ∃ t, exec (.ret x) s = .next t ∧ t.sp.toNat = k.val ∧ t.pc = s.stack[k] ∧ t.stack = s.stack ∧
        Frame { pc := true, stack := true } s t) ∧
    (s.sp.toNat = 0 → EntersFault (.ret x) s 2)

/-- R153 and R263; the handler's `PC` is the address of the instruction after the call. -/
def Obligations.CallPushesTheReturnAddress : Prop :=
  DecodesAs 0xF000 0x2000 (fun w => .call (fieldNnn w)) ∧
  ∀ (nnn : BitVec 12) (s : State),
    (∀ k : Fin 16, s.sp.toNat = k.val →
      ∃ t, exec (.call nnn) s = .next t ∧ t.stack[k] = s.pc ∧
        (∀ j : Fin 16, j ≠ k → t.stack[j] = s.stack[j]) ∧ t.sp.toNat = k.val + 1 ∧ t.pc.toNat = nnn.toNat ∧
        Frame { pc := true, stack := true } s t) ∧
    (s.sp.toNat = 16 → EntersFault (.call nnn) s 1)

/-- R160: a `RET` pops whatever the most recent unreturned `CALL` pushed. -/
def Obligations.ReturnResumesAfterTheCall : Prop :=
  ∀ (nnn : BitVec 12) (x : Nibble) (s : State), s.sp.toNat < 16 →
    ∃ t, exec (.call nnn) s = .next t ∧
      ∀ u : State, u.sp = t.sp → u.stack = t.stack →
        ∃ v, exec (.ret x) u = .next v ∧ v.pc = s.pc ∧ v.sp = s.sp

/-- R152 and R154: any target is accepted, the sum is not masked to 12 bits. -/
def Obligations.JumpsSetThePc : Prop :=
  DecodesAs 0xF000 0x1000 (fun w => .jp (fieldNnn w)) ∧ DecodesAs 0xF000 0xB000 (fun w => .jpV0 (fieldNnn w)) ∧
  ∀ (nnn : BitVec 12) (s : State),
    (∃ t, exec (.jp nnn) s = .next t ∧ t.pc.toNat = nnn.toNat ∧ Frame { pc := true } s t) ∧
    (∃ t, exec (.jpV0 nnn) s = .next t ∧ t.pc.toNat = nnn.toNat + (s.reg 0).toNat ∧ Frame { pc := true } s t)

/-- R155 and R156. -/
def Obligations.SkipsOnAnImmediate : Prop :=
  DecodesAs 0xF000 0x3000 (fun w => .seImm (fieldX w) (fieldKk w)) ∧
  DecodesAs 0xF000 0x4000 (fun w => .sneImm (fieldX w) (fieldKk w)) ∧
  ∀ (x : Reg) (kk : Byte) (s : State),
    (∃ t, exec (.seImm x kk) s = .next t ∧
      t.pc.toNat = (if s.reg x = kk then (s.pc.toNat + 2) % 65536 else s.pc.toNat) ∧ Frame { pc := true } s t) ∧
    (∃ t, exec (.sneImm x kk) s = .next t ∧
      t.pc.toNat = (if s.reg x = kk then s.pc.toNat else (s.pc.toNat + 2) % 65536) ∧ Frame { pc := true } s t)

/-- R157 and R158. -/
def Obligations.SkipsOnTwoRegisters : Prop :=
  DecodesAs 0xF000 0x5000 (fun w => .seReg (fieldX w) (fieldY w) (fieldN w)) ∧
  DecodesAs 0xF000 0x9000 (fun w => .sneReg (fieldX w) (fieldY w) (fieldN w)) ∧
  ∀ (x y : Reg) (n : Nibble) (s : State),
    (∃ t, exec (.seReg x y n) s = .next t ∧
      t.pc.toNat = (if s.reg x = s.reg y then (s.pc.toNat + 2) % 65536 else s.pc.toNat) ∧ Frame { pc := true } s t) ∧
    (∃ t, exec (.sneReg x y n) s = .next t ∧
      t.pc.toNat = (if s.reg x = s.reg y then s.pc.toNat else (s.pc.toNat + 2) % 65536) ∧ Frame { pc := true } s t)

/-- R171 to R173. The frame names only `V[x]`, so `VF` is no side effect. -/
def Obligations.LoadsAndAddImmediate : Prop :=
  DecodesAs 0xF000 0x6000 (fun w => .ldImm (fieldX w) (fieldKk w)) ∧
  DecodesAs 0xF000 0x7000 (fun w => .addImm (fieldX w) (fieldKk w)) ∧
  (∀ w : Word, w &&& 0xF000 = 0x8000 → w.toNat % 16 ∈ [0, 8, 9, 0xA, 0xB, 0xC, 0xD, 0xF] →
    decodeWord w = some (.ldReg (fieldX w) (fieldY w) (fieldN w))) ∧
  (∀ (x : Reg) (kk : Byte) (s : State),
    (∃ t, exec (.ldImm x kk) s = .next t ∧ t.reg x = kk ∧ Frame { regs := [x] } s t) ∧
    (∃ t, exec (.addImm x kk) s = .next t ∧ (t.reg x).toNat = ((s.reg x).toNat + kk.toNat) % 256 ∧
      Frame { regs := [x] } s t)) ∧
  (∀ (x y : Reg) (n : Nibble) (s : State),
    ∃ t, exec (.ldReg x y n) s = .next t ∧ t.reg x = s.reg y ∧ Frame { regs := [x] } s t)

/-- R174 to R176, bit by bit. -/
def Obligations.LogicIsBitwiseAndLeavesTheFlag : Prop :=
  DecodesAs 0xF00F 0x8001 (fun w => .orReg (fieldX w) (fieldY w)) ∧
  DecodesAs 0xF00F 0x8002 (fun w => .andReg (fieldX w) (fieldY w)) ∧
  DecodesAs 0xF00F 0x8003 (fun w => .xorReg (fieldX w) (fieldY w)) ∧
  ∀ (x y : Reg) (s : State),
    (∃ t, exec (.orReg x y) s = .next t ∧ Frame { regs := [x] } s t ∧
      ∀ k, (t.reg x).getLsbD k = ((s.reg x).getLsbD k || (s.reg y).getLsbD k)) ∧
    (∃ t, exec (.andReg x y) s = .next t ∧ Frame { regs := [x] } s t ∧
      ∀ k, (t.reg x).getLsbD k = ((s.reg x).getLsbD k && (s.reg y).getLsbD k)) ∧
    (∃ t, exec (.xorReg x y) s = .next t ∧ Frame { regs := [x] } s t ∧
      ∀ k, (t.reg x).getLsbD k = xor ((s.reg x).getLsbD k) ((s.reg y).getLsbD k))

/-- R177: the textbook carry, the flag written last, so for `x = 15` `VF` ends as the carry. -/
def Obligations.AddWritesSumAndCarry : Prop :=
  DecodesAs 0xF00F 0x8004 (fun w => .addReg (fieldX w) (fieldY w)) ∧
  ∀ (x y : Reg) (s : State),
    ∃ t, exec (.addReg x y) s = .next t ∧
      (x.val ≠ 15 → (t.reg x).toNat = ((s.reg x).toNat + (s.reg y).toNat) % 256) ∧
      (t.reg 15).toNat = (if 255 < (s.reg x).toNat + (s.reg y).toNat then 1 else 0) ∧
      Frame { regs := [x, 15] } s t

/-- R178 and R180. -/
def Obligations.SubtractionsWriteDifferenceAndNotBorrow : Prop :=
  DecodesAs 0xF00F 0x8005 (fun w => .subReg (fieldX w) (fieldY w)) ∧
  DecodesAs 0xF00F 0x8007 (fun w => .subn (fieldX w) (fieldY w)) ∧
  ∀ (x y : Reg) (s : State),
    (∃ t, exec (.subReg x y) s = .next t ∧
      (x.val ≠ 15 → (t.reg x).toNat = ((s.reg x).toNat + 256 - (s.reg y).toNat) % 256) ∧
      (t.reg 15).toNat = (if (s.reg y).toNat ≤ (s.reg x).toNat then 1 else 0) ∧
      Frame { regs := [x, 15] } s t) ∧
    (∃ t, exec (.subn x y) s = .next t ∧
      (x.val ≠ 15 → (t.reg x).toNat = ((s.reg y).toNat + 256 - (s.reg x).toNat) % 256) ∧
      (t.reg 15).toNat = (if (s.reg x).toNat ≤ (s.reg y).toNat then 1 else 0) ∧
      Frame { regs := [x, 15] } s t)

/-- R179 and R181: the shift is of `V[x]` in place, `y` is ignored. -/
def Obligations.ShiftsWriteResultAndTheBitShiftedOut : Prop :=
  DecodesAs 0xF00F 0x8006 (fun w => .shr (fieldX w) (fieldY w)) ∧
  DecodesAs 0xF00F 0x800E (fun w => .shl (fieldX w) (fieldY w)) ∧
  ∀ (x y : Reg) (s : State),
    (∃ t, exec (.shr x y) s = .next t ∧
      (x.val ≠ 15 → (t.reg x).toNat = (s.reg x).toNat / 2) ∧
      (t.reg 15).toNat = (s.reg x).toNat % 2 ∧ Frame { regs := [x, 15] } s t) ∧
    (∃ t, exec (.shl x y) s = .next t ∧
      (x.val ≠ 15 → (t.reg x).toNat = (s.reg x).toNat * 2 % 256) ∧
      (t.reg 15).toNat = (s.reg x).toNat / 128 ∧ Frame { regs := [x, 15] } s t)

/-- R182, for every value of the free byte of R184. The free byte's form is the model's (DESIGN CHOICE, log 5). -/
def Obligations.RandomIsAMaskedFreeByte : Prop :=
  DecodesAs 0xF000 0xC000 (fun w => .rnd (fieldX w) (fieldKk w)) ∧
  ∀ (x : Reg) (kk : Byte) (s : State),
    ∃ t, exec (.rnd x kk) s = .next t ∧
      (∀ k, (t.reg x).getLsbD k = ((Config.freeByte s.drawCount).getLsbD k && kk.getLsbD k)) ∧
      t.drawCount = s.drawCount + 1 ∧ Frame { regs := [x], draws := true } s t

/-- R200 to R202, with `FONT_BASE = 0x000`. -/
def Obligations.IndexRegisterWrites : Prop :=
  DecodesAs 0xF000 0xA000 (fun w => .ldI (fieldNnn w)) ∧ DecodesAs 0xF0FF 0xF01E (fun w => .addI (fieldX w)) ∧
  DecodesAs 0xF0FF 0xF029 (fun w => .ldF (fieldX w)) ∧
  (∀ (nnn : BitVec 12) (s : State),
    ∃ t, exec (.ldI nnn) s = .next t ∧ t.i.toNat = nnn.toNat ∧ Frame { i := true } s t) ∧
  (∀ (x : Reg) (s : State),
    (∃ t, exec (.addI x) s = .next t ∧ t.i.toNat = (s.i.toNat + (s.reg x).toNat) % 65536 ∧
      Frame { i := true } s t) ∧
    (∃ t, exec (.ldF x) s = .next t ∧ t.i.toNat = 5 * ((s.reg x).toNat % 16) ∧ Frame { i := true } s t))

/-- R203. The frame: every byte outside the three is as before, and `I` is unchanged. -/
def Obligations.BcdStoresThreeDigits : Prop :=
  DecodesAs 0xF0FF 0xF033 (fun w => .ldB (fieldX w)) ∧
  ∀ (x : Reg) (s : State),
    (s.i.toNat ≤ 0xFFD → ∃ t, exec (.ldB x) s = .next t ∧
      (t.mem.byteAt s.i.toNat).toNat = (s.reg x).toNat / 100 ∧
      (t.mem.byteAt (s.i.toNat + 1)).toNat = (s.reg x).toNat / 10 % 10 ∧
      (t.mem.byteAt (s.i.toNat + 2)).toNat = (s.reg x).toNat % 10 ∧
      100 * (t.mem.byteAt s.i.toNat).toNat + 10 * (t.mem.byteAt (s.i.toNat + 1)).toNat +
        (t.mem.byteAt (s.i.toNat + 2)).toNat = (s.reg x).toNat ∧
      Frame { mem := addresses s.i.toNat 3 } s t) ∧
    (0xFFD < s.i.toNat → EntersFault (.ldB x) s 3)

/-- R204: the range is inclusive, `I` is unchanged. -/
def Obligations.StoreRegistersWritesTheRange : Prop :=
  DecodesAs 0xF0FF 0xF055 (fun w => .storeRegs (fieldX w)) ∧
  ∀ (x : Reg) (s : State),
    (s.i.toNat + x.val ≤ 0xFFF → ∃ t, exec (.storeRegs x) s = .next t ∧
      (∀ k : Reg, k ≤ x → t.mem.byteAt (s.i.toNat + k.val) = s.reg k) ∧
      Frame { mem := addresses s.i.toNat (x.val + 1) } s t) ∧
    (0xFFF < s.i.toNat + x.val → EntersFault (.storeRegs x) s 3)

/-- R205: registers above `x`, `I` and memory are unchanged. -/
def Obligations.LoadRegistersReadsTheRange : Prop :=
  DecodesAs 0xF0FF 0xF065 (fun w => .loadRegs (fieldX w)) ∧
  ∀ (x : Reg) (s : State),
    (s.i.toNat + x.val ≤ 0xFFF → ∃ t, exec (.loadRegs x) s = .next t ∧
      (∀ k : Reg, k ≤ x → t.reg k = s.mem.byteAt (s.i.toNat + k.val)) ∧
      Frame { regs := (List.finRange 16).filter (fun k => decide (k ≤ x)) } s t) ∧
    (0xFFF < s.i.toNat + x.val → EntersFault (.loadRegs x) s 3)

/-- R206 (a), with anything in between that keeps memory and `I`. -/
def Obligations.StoredRegistersLoadBack : Prop :=
  ∀ (x : Reg) (s : State), s.i.toNat + x.val ≤ 0xFFF →
    ∃ t, exec (.storeRegs x) s = .next t ∧
      ∀ u : State, u.mem = t.mem → u.i = t.i →
        ∃ v, exec (.loadRegs x) u = .next v ∧ ∀ k : Reg, k ≤ x → v.reg k = s.reg k

/-- R74 and R206 (d): self-modifying code is legal and needs no fence. -/
def Obligations.StoredInstructionsAreFetched : Prop :=
  ∀ (x k k' : Reg) (s : State), s.i.toNat + x.val ≤ 0xFFF → k'.val = k.val + 1 → k' ≤ x →
    ∃ t, exec (.storeRegs x) s = .next t ∧
      ∀ u : State, u.running → u.mem = t.mem → u.pc.toNat = s.i.toNat + k.val →
        FetchesWord u (wordOfBytes (s.reg k) (s.reg k'))

/-- R223. -/
def Obligations.ClsClearsTheScreen : Prop :=
  DecodesAs 0xF0FF 0x00E0 (fun w => .cls (fieldX w)) ∧
  ∀ (x : Nibble) (s : State),
    ∃ t, exec (.cls x) s = .next t ∧ (∀ px py, t.fb.pixel px py = false) ∧ t.fbChanged = true ∧
      Frame { display := true } s t

/-- R221 and R222: none is `raise FbCoordOutOfRange`. -/
def Obligations.SetPixelWrapsOnce : Prop :=
  ∀ (fb : Framebuffer) (x y : Int),
    (-64 ≤ x ∧ x ≤ 127 ∧ -32 ≤ y ∧ y ≤ 63 →
      ∃ fb' coll, fb.setPixel x y = some (fb', coll) ∧
        ∀ (px : Fin 64) (py : Fin 32),
          ((px.val : Int) = x % 64 ∧ (py.val : Int) = y % 32 →
            fb'.pixel px py = !fb.pixel px py ∧ coll = fb.pixel px py) ∧
          (¬((px.val : Int) = x % 64 ∧ (py.val : Int) = y % 32) → fb'.pixel px py = fb.pixel px py)) ∧
    (¬(-64 ≤ x ∧ x ≤ 127 ∧ -32 ≤ y ∧ y ≤ 63) → fb.setPixel x y = none)

/-- R226 (2): `SetPixel` "is its own inverse". -/
def Obligations.SetPixelIsItsOwnInverse : Prop :=
  ∀ (fb fb' : Framebuffer) (x y : Int) (coll : Bool),
    fb.setPixel x y = some (fb', coll) → fb'.setPixel x y = some (fb, !coll)

/-- R225 and R266, pixel by pixel: the coordinates are the values before any write, also for `x = 15` or `y = 15`. -/
def Obligations.DrawTogglesTheSpritePixels : Prop :=
  DecodesAs 0xF000 0xD000 (fun w => .drw (fieldX w) (fieldY w) (fieldN w)) ∧
  ∀ (x y : Reg) (n : Nibble) (s : State),
    (SpriteReadable s n → SpriteOnGrid s x y n → ∃ t, exec (.drw x y n) s = .next t ∧
      (∀ px py, (Touches s x y n px py → t.fb.pixel px py = !s.fb.pixel px py) ∧
        (¬Touches s x y n px py → t.fb.pixel px py = s.fb.pixel px py)) ∧
      ((∃ px py, Touches s x y n px py ∧ s.fb.pixel px py = true) → t.reg 15 = 1) ∧
      ((¬∃ px py, Touches s x y n px py ∧ s.fb.pixel px py = true) → t.reg 15 = 0) ∧
      t.fbChanged = true ∧ Frame { regs := [15], display := true } s t) ∧
    (¬SpriteReadable s n → EntersFault (.drw x y n) s 3) ∧
    (SpriteReadable s n → ¬SpriteOnGrid s x y n → EntersFault (.drw x y n) s 4)

/-- R227. -/
def Obligations.DrawsNearTheScreenNeverFault : Prop :=
  ∀ (x y : Reg) (n : Nibble) (s : State), 1 ≤ n.val → s.i.toNat + n.val - 1 ≤ 0xFFF →
    (((s.reg x).toNat ≤ 120 ∧ (s.reg y).toNat + n.val ≤ 64) ∨ ((s.reg x).toNat ≤ 63 ∧ (s.reg y).toNat ≤ 31)) →
    ∃ t, exec (.drw x y n) s = .next t ∧ t.fault = s.fault ∧ t.fbChanged = true

/-- R226 (2), as corrected by conflict C11. -/
def Obligations.DrawingTwiceRestoresTheScreen : Prop :=
  ∀ (x y : Reg) (n : Nibble) (s : State), SpriteReadable s n → SpriteOnGrid s x y n →
    ∃ t, exec (.drw x y n) s = .next t ∧
      ∀ u : State, u.fb = t.fb → u.i = s.i → u.reg x = s.reg x → u.reg y = s.reg y →
        (∀ r, r < n.val → u.mem.byteAt (s.i.toNat + r) = s.mem.byteAt (s.i.toNat + r)) →
        ∃ v, exec (.drw x y n) u = .next v ∧ v.fb = s.fb ∧
          ((∃ px py, Touches s x y n px py ∧ s.fb.pixel px py = false) → v.reg 15 = 1) ∧
          ((¬∃ px py, Touches s x y n px py ∧ s.fb.pixel px py = false) → v.reg 15 = 0)

/-- R240, R241, R267: the index is the whole register value. -/
def Obligations.KeySkipsReadTheLatch : Prop :=
  DecodesAs 0xF0FF 0xE09E (fun w => .skp (fieldX w)) ∧ DecodesAs 0xF0FF 0xE0A1 (fun w => .sknp (fieldX w)) ∧
  ∀ (x : Reg) (s : State),
    (∀ k : Fin 16, (s.reg x).toNat = k.val →
      (∃ t, exec (.skp x) s = .next t ∧
        t.pc.toNat = (if s.key[k] = true then (s.pc.toNat + 2) % 65536 else s.pc.toNat) ∧
        Frame { pc := true } s t) ∧
      (∃ t, exec (.sknp x) s = .next t ∧
        t.pc.toNat = (if s.key[k] = true then s.pc.toNat else (s.pc.toNat + 2) % 65536) ∧
        Frame { pc := true } s t)) ∧
    (15 < (s.reg x).toNat → EntersFault (.skp x) s 5 ∧ EntersFault (.sknp x) s 5)

/-- R242, R244, R245, with the tick of the same step. -/
def Obligations.TimerInstructionsMoveTheTimers : Prop :=
  DecodesAs 0xF00F 0xF007 (fun w => .ldVxDt (fieldX w) (fieldY w)) ∧ DecodesAs 0xF0FF 0xF015 (fun w => .ldDt (fieldX w)) ∧
  DecodesAs 0xF0FF 0xF018 (fun w => .ldSt (fieldX w)) ∧
  (∀ (x : Reg) (y : Nibble) (s : State),
    (∃ t, exec (.ldVxDt x y) s = .next t ∧ t.reg x = s.dt ∧ Frame { regs := [x] } s t) ∧
    (∃ t, exec (.ldDt x) s = .next t ∧ t.dt = s.reg x ∧ Frame { dt := true } s t) ∧
    (∃ t, exec (.ldSt x) s = .next t ∧ t.st = s.reg x ∧ Frame { st := true } s t)) ∧
  (∀ (s : State) (w : Word), FetchesWord s w →
    (∀ x y, decodeWord w = some (.ldVxDt x y) →
      ∃ t, step s = .next t ∧ t.reg x = s.dt ∧ t.dt.toNat = (t.reg x).toNat - 1) ∧
    (∀ x, decodeWord w = some (.ldDt x) → ∃ t, step s = .next t ∧ t.dt.toNat = (s.reg x).toNat - 1) ∧
    (∀ x, decodeWord w = some (.ldSt x) → ∃ t, step s = .next t ∧ t.st.toNat = (s.reg x).toNat - 1))

/-- R243 in full, over the step and the host's key events. -/
def Obligations.KeyWaitEndToEnd : Prop :=
  DecodesAs 0xF00F 0xF00A (fun w => .ldKey (fieldX w) (fieldY w)) ∧
  (∀ (x : Reg) (y : Nibble) (s : State),
    ∃ t, exec (.ldKey x y) s = .next t ∧ t.wait = true ∧ t.waitReg = x ∧ Frame { wait := true } s t) ∧
  ∀ (s : State) (w : Word) (x : Reg) (y : Nibble), FetchesWord s w → decodeWord w = some (.ldKey x y) →
    ∃ t, step s = .next t ∧
      t.wait = true ∧ t.waitReg = x ∧ t.pc = s.pc + 2 ∧ t.dt.toNat = s.dt.toNat - 1 ∧ t.st.toNat = s.st.toNat - 1 ∧
      { t with wait := s.wait, waitReg := s.waitReg, pc := s.pc, dt := s.dt, st := s.st } = s ∧
      (∀ n, runAll (List.replicate n .step) t = .next t) ∧
      (∀ code : Fin 16, t.submitKey code false = t) ∧
      (∀ code : Fin 16,
        ((t.submitKey code true).reg x).toNat = code.val ∧ (t.submitKey code true).running ∧
        Frame { regs := [x], wait := true } t (t.submitKey code true))

/-- R23 and the last paragraph of R22, over all 35 instructions; `destinations` is the table. -/
def Obligations.RegistersChangeOnlyAsTheTableSays : Prop :=
  ∀ (i : Instr) (s t : State), exec i s = .next t → ∀ r, r ∉ destinations i → t.reg r = s.reg r

/-- The "written by" columns of R38, with R23 for the registers (`RegistersChangeOnlyAsTheTableSays` says which), R26 to
R28, R30, R34, R61 for memory and R261 for `FAULT`, over all 35 handlers. The history of reports is the model's own field
(DESIGN CHOICE, log 6). -/
def Obligations.EachPieceOfStateHasItsWriters : Prop :=
  ∀ (i : Instr) (s t : State), exec i s = .next t →
    ((∃ r, t.reg r ≠ s.reg r) → destinations i ≠ []) ∧
    (t.i ≠ s.i → (∃ nnn, i = .ldI nnn) ∨ ∃ x, i = .addI x ∨ i = .ldF x) ∧
    (t.sp ≠ s.sp ∨ t.stack ≠ s.stack → (∃ nnn, i = .call nnn) ∨ ∃ x, i = .ret x) ∧
    (t.dt ≠ s.dt → ∃ x, i = .ldDt x) ∧
    (t.st ≠ s.st → ∃ x, i = .ldSt x) ∧
    (t.wait ≠ s.wait ∨ t.waitReg ≠ s.waitReg → ∃ x y, i = .ldKey x y) ∧
    (t.mem ≠ s.mem → ∃ x, i = .ldB x ∨ i = .storeRegs x) ∧
    (t.fb ≠ s.fb ∨ t.fbChanged ≠ s.fbChanged → (∃ x, i = .cls x) ∨ ∃ x y n, i = .drw x y n) ∧
    (t.pc ≠ s.pc → (∃ nnn, i = .jp nnn ∨ i = .call nnn ∨ i = .jpV0 nnn) ∨ (∃ x, i = .ret x ∨ i = .skp x ∨ i = .sknp x) ∨
      (∃ x kk, i = .seImm x kk ∨ i = .sneImm x kk) ∨ ∃ x y n, i = .seReg x y n ∨ i = .sneReg x y n) ∧
    (t.fault ≠ s.fault → (∃ nnn, i = .call nnn) ∨ (∃ x y n, i = .drw x y n) ∨
      ∃ x, i = .ret x ∨ i = .ldB x ∨ i = .storeRegs x ∨ i = .loadRegs x ∨ i = .skp x ∨ i = .sknp x) ∧
    t.key = s.key ∧ t.reports = s.reports

/-- R40 (d), for one step of any state. -/
def Obligations.OddPcComesOnlyFromAJump : Prop :=
  ∀ s t : State, step s = .next t → s.pc.toNat % 2 = 0 → t.pc.toNat % 2 = 1 →
    ∃ w i, FetchesWord s w ∧ decodeWord w = some i ∧
      ((∃ nnn, i = .jp nnn ∨ i = .call nnn ∨ i = .jpV0 nnn) ∨ ∃ x, i = .ret x)

end
end

