-- ==== Sys2Proof/Laws/Decode.lean ====
section
/-! SUPPORT. Words, nibbles and fields: what each field of an encoded word is, masks nibble by nibble, and the dispatch
of a word given by its nibbles. -/

namespace Sys2Proof

/-! ### Words as numbers -/

theorem shiftLeft_or_of_lt {b k : Nat} (a : Nat) (hb : b < 2 ^ k) : a <<< k ||| b = a * 2 ^ k + b := by
  rw [← Nat.shiftLeft_add_eq_or_of_lt hb, Nat.shiftLeft_eq]

@[simp] theorem toNat_nib (a : Nibble) : (nib a).toNat = a.val := rfl

theorem toNat_wordOfNibbles (op x y n : Nibble) :
    (wordOfNibbles op x y n).toNat = op.val * 4096 + x.val * 256 + y.val * 16 + n.val := by
  simp only [wordOfNibbles, BitVec.toNat_append, toNat_nib]
  rw [shiftLeft_or_of_lt (b := x.val) (k := 4) _ (by omega), shiftLeft_or_of_lt (b := y.val) (k := 4) _ (by omega),
    shiftLeft_or_of_lt (b := n.val) (k := 4) _ (by omega)]
  omega

theorem toNat_encRI (op x : Nibble) (kk : Byte) :
    (encRI op x kk).toNat = op.val * 4096 + x.val * 256 + kk.toNat := by
  simp only [encRI, BitVec.toNat_append, toNat_nib]
  rw [shiftLeft_or_of_lt (b := x.val) (k := 4) _ (by omega), shiftLeft_or_of_lt (b := kk.toNat) (k := 8) _ (by omega)]
  omega

theorem toNat_encA (op : Nibble) (nnn : BitVec 12) : (encA op nnn).toNat = op.val * 4096 + nnn.toNat := by
  simp only [encA, BitVec.toNat_append, toNat_nib]
  rw [shiftLeft_or_of_lt (b := nnn.toNat) (k := 12) _ (by omega)]
  omega

theorem toNat_wordOfBytes (b0 b1 : Byte) : (wordOfBytes b0 b1).toNat = b0.toNat * 256 + b1.toNat := by
  simp only [wordOfBytes, BitVec.toNat_append]
  rw [shiftLeft_or_of_lt (b := b1.toNat) (k := 8) _ (by omega)]
  rfl

/-! ### Fields as numbers -/

theorem fieldOp_val (w : Word) : (fieldOp w).val = w.toNat / 4096 := by
  have h : (fieldOp w).val = w.toNat / 4096 % 16 := by simp [fieldOp, Nat.shiftRight_eq_div_pow]
  omega

theorem fieldX_val (w : Word) : (fieldX w).val = w.toNat / 256 % 16 := by
  simp [fieldX, Nat.shiftRight_eq_div_pow]

theorem fieldY_val (w : Word) : (fieldY w).val = w.toNat / 16 % 16 := by
  simp [fieldY, Nat.shiftRight_eq_div_pow]

theorem fieldN_val (w : Word) : (fieldN w).val = w.toNat % 16 := by
  simp [fieldN]

theorem fieldKk_toNat (w : Word) : (fieldKk w).toNat = w.toNat % 256 := by simp [fieldKk]

theorem fieldNnn_toNat (w : Word) : (fieldNnn w).toNat = w.toNat % 4096 := by simp [fieldNnn]

theorem highByte_toNat (w : Word) : (highByte w).toNat = w.toNat / 256 := by
  have h : (highByte w).toNat = w.toNat / 256 % 256 := by simp [highByte, Nat.shiftRight_eq_div_pow]
  omega

theorem lowByteOfWord_toNat (w : Word) : (lowByteOfWord w).toNat = w.toNat % 256 := by simp [lowByteOfWord]

/-! ### Fields of encoded words -/

@[simp] theorem fieldOp_encRI (op x : Nibble) (kk : Byte) : fieldOp (encRI op x kk) = op := by
  apply Fin.ext; rw [fieldOp_val, toNat_encRI]; omega

@[simp] theorem fieldX_encRI (op x : Nibble) (kk : Byte) : fieldX (encRI op x kk) = x := by
  apply Fin.ext; rw [fieldX_val, toNat_encRI]; omega

@[simp] theorem fieldKk_encRI (op x : Nibble) (kk : Byte) : fieldKk (encRI op x kk) = kk := by
  apply BitVec.eq_of_toNat_eq; rw [fieldKk_toNat, toNat_encRI]; omega

@[simp] theorem fieldOp_encA (op : Nibble) (nnn : BitVec 12) : fieldOp (encA op nnn) = op := by
  apply Fin.ext; rw [fieldOp_val, toNat_encA]; omega

@[simp] theorem fieldNnn_encA (op : Nibble) (nnn : BitVec 12) : fieldNnn (encA op nnn) = nnn := by
  apply BitVec.eq_of_toNat_eq; rw [fieldNnn_toNat, toNat_encA]; omega

@[simp] theorem fieldOp_wordOfNibbles (op x y n : Nibble) : fieldOp (wordOfNibbles op x y n) = op := by
  apply Fin.ext; rw [fieldOp_val, toNat_wordOfNibbles]; omega

@[simp] theorem fieldX_wordOfNibbles (op x y n : Nibble) : fieldX (wordOfNibbles op x y n) = x := by
  apply Fin.ext; rw [fieldX_val, toNat_wordOfNibbles]; omega

@[simp] theorem fieldY_wordOfNibbles (op x y n : Nibble) : fieldY (wordOfNibbles op x y n) = y := by
  apply Fin.ext; rw [fieldY_val, toNat_wordOfNibbles]; omega

@[simp] theorem fieldN_wordOfNibbles (op x y n : Nibble) : fieldN (wordOfNibbles op x y n) = n := by
  apply Fin.ext; rw [fieldN_val, toNat_wordOfNibbles]; omega

@[simp] theorem fieldX_encRR (op x y n : Nibble) : fieldX (encRR op x y n) = x := fieldX_wordOfNibbles op x y n

@[simp] theorem fieldY_encRR (op x y n : Nibble) : fieldY (encRR op x y n) = y := fieldY_wordOfNibbles op x y n

@[simp] theorem fieldN_encRR (op x y n : Nibble) : fieldN (encRR op x y n) = n := fieldN_wordOfNibbles op x y n

/-- Every word is made of its four nibbles. -/
theorem wordOfNibbles_fields (w : Word) : wordOfNibbles (fieldOp w) (fieldX w) (fieldY w) (fieldN w) = w := by
  apply BitVec.eq_of_toNat_eq
  rw [toNat_wordOfNibbles, fieldOp_val, fieldX_val, fieldY_val, fieldN_val]; omega

/-- The bytes of a word, in memory order, make the word again. -/
@[simp] theorem wordOfBytes_bytes (w : Word) : wordOfBytes (highByte w) (lowByteOfWord w) = w := by
  apply BitVec.eq_of_toNat_eq
  rw [toNat_wordOfBytes, highByte_toNat, lowByteOfWord_toNat]; omega

theorem wordOfNibbles_inj {a b c d a' b' c' d' : Nibble} :
    wordOfNibbles a b c d = wordOfNibbles a' b' c' d' ↔ a = a' ∧ b = b' ∧ c = c' ∧ d = d' := by
  constructor
  · intro h
    exact ⟨by simpa using congrArg fieldOp h, by simpa using congrArg fieldX h, by simpa using congrArg fieldY h,
      by simpa using congrArg fieldN h⟩
  · rintro ⟨rfl, rfl, rfl, rfl⟩; rfl

/-- A register-and-byte word by nibbles. -/
theorem encRI_nibbles (op x : Nibble) (kk : Byte) :
    encRI op x kk = wordOfNibbles op x ⟨kk.toNat / 16, by omega⟩ ⟨kk.toNat % 16, by omega⟩ := by
  apply BitVec.eq_of_toNat_eq; rw [toNat_encRI, toNat_wordOfNibbles]; simp only; omega

/-- An address word by nibbles. -/
theorem encA_nibbles (op : Nibble) (nnn : BitVec 12) :
    encA op nnn = wordOfNibbles op ⟨nnn.toNat / 256, by omega⟩ ⟨nnn.toNat / 16 % 16, by omega⟩
      ⟨nnn.toNat % 16, by omega⟩ := by
  apply BitVec.eq_of_toNat_eq; rw [toNat_encA, toNat_wordOfNibbles]; simp only; omega

/-! ### Masks (R94) -/

theorem nib_and_F (a : Nibble) : nib a &&& nib 15 = nib a := by revert a; decide

theorem nib_and_0 (a : Nibble) : nib a &&& nib 0 = nib 0 := by revert a; decide

theorem wordOfNibbles_and (a b c d a' b' c' d' : Nibble) :
    wordOfNibbles a b c d &&& wordOfNibbles a' b' c' d' =
      ((nib a &&& nib a') ++ (nib b &&& nib b') ++ (nib c &&& nib c') ++ (nib d &&& nib d') :
        BitVec (4 + 4 + 4 + 4)) := by
  have h : wordOfNibbles a b c d &&& wordOfNibbles a' b' c' d' =
      (nib a ++ nib b ++ nib c ++ nib d : BitVec (4 + 4 + 4 + 4)) &&&
        (nib a' ++ nib b' ++ nib c' ++ nib d' : BitVec (4 + 4 + 4 + 4)) := rfl
  rw [h, BitVec.and_append, BitVec.and_append, BitVec.and_append]

theorem and_F0FF (op x y n : Nibble) : wordOfNibbles op x y n &&& 0xF0FF = wordOfNibbles op 0 y n := by
  have h : (0xF0FF : Word) = wordOfNibbles 15 0 15 15 := by decide
  rw [h, wordOfNibbles_and]; simp only [nib_and_F, nib_and_0]; rfl

theorem and_F00F (op x y n : Nibble) : wordOfNibbles op x y n &&& 0xF00F = wordOfNibbles op 0 0 n := by
  have h : (0xF00F : Word) = wordOfNibbles 15 0 0 15 := by decide
  rw [h, wordOfNibbles_and]; simp only [nib_and_F, nib_and_0]; rfl

theorem and_F000 (op x y n : Nibble) : wordOfNibbles op x y n &&& 0xF000 = wordOfNibbles op 0 0 0 := by
  have h : (0xF000 : Word) = wordOfNibbles 15 0 0 0 := by decide
  rw [h, wordOfNibbles_and]; simp only [nib_and_F, nib_and_0]; rfl

/-! ### Dispatch by nibbles (R97) -/

/-- The key set by nibbles. -/
theorem keyTable_keys : keyTable.map KeyRow.key =
    [wordOfNibbles 0 0 14 0, wordOfNibbles 0 0 14 14, wordOfNibbles 1 0 0 0, wordOfNibbles 2 0 0 0,
     wordOfNibbles 11 0 0 0, wordOfNibbles 0 0 0 0, wordOfNibbles 3 0 0 0, wordOfNibbles 4 0 0 0,
     wordOfNibbles 5 0 0 0, wordOfNibbles 9 0 0 0, wordOfNibbles 6 0 0 0, wordOfNibbles 7 0 0 0] ++
    [wordOfNibbles 8 0 0 0, wordOfNibbles 8 0 0 1, wordOfNibbles 8 0 0 2, wordOfNibbles 8 0 0 3,
     wordOfNibbles 8 0 0 4, wordOfNibbles 8 0 0 5, wordOfNibbles 8 0 0 6, wordOfNibbles 8 0 0 7,
     wordOfNibbles 8 0 0 14, wordOfNibbles 12 0 0 0, wordOfNibbles 10 0 0 0, wordOfNibbles 13 0 0 0] ++
    [wordOfNibbles 15 0 1 14, wordOfNibbles 15 0 2 9, wordOfNibbles 15 0 3 3, wordOfNibbles 15 0 5 5,
     wordOfNibbles 15 0 6 5, wordOfNibbles 14 0 9 14, wordOfNibbles 14 0 10 1, wordOfNibbles 15 0 0 7,
     wordOfNibbles 15 0 0 10, wordOfNibbles 15 0 1 5, wordOfNibbles 15 0 1 8] := by decide

theorem lookupKey_some {k : Word} {r : KeyRow} (h : lookupKey k = some r) : r ∈ keyTable ∧ r.key = k :=
  ⟨List.mem_of_find?_eq_some h, by simpa using List.find?_some h⟩

theorem lookupKey_eq_none_iff (k : Word) : lookupKey k = none ↔ k ∉ keyTable.map KeyRow.key := by
  simp only [lookupKey, List.find?_eq_none, List.mem_map, not_exists, not_and, beq_iff_eq]

/-- Whether the word `op`, 0, `y`, `n` is a key. -/
def nibbleKey (op y n : Nibble) : Bool :=
  if op = 0 then (y, n) ∈ ([(14, 0), (14, 14), (0, 0)] : List (Nibble × Nibble))
  else if op = 8 then (y, n) ∈ ([(0, 0), (0, 1), (0, 2), (0, 3), (0, 4), (0, 5), (0, 6), (0, 7), (0, 14)] : List (Nibble × Nibble))
  else if op = 14 then (y, n) ∈ ([(9, 14), (10, 1)] : List (Nibble × Nibble))
  else if op = 15 then
    (y, n) ∈ ([(1, 14), (2, 9), (3, 3), (5, 5), (6, 5), (0, 7), (0, 10), (1, 5), (1, 8)] : List (Nibble × Nibble))
  else y = 0 ∧ n = 0

theorem mem_keys_iff (op x y n : Nibble) :
    wordOfNibbles op x y n ∈ keyTable.map KeyRow.key ↔ x = 0 ∧ nibbleKey op y n = true := by
  rw [keyTable_keys]
  simp only [List.mem_append, List.mem_cons, List.not_mem_nil, wordOfNibbles_inj, or_false]
  by_cases hx : x = 0 <;> fin_cases op <;> simp [nibbleKey, hx]


/-- The four tiers by nibbles: no key has a nonzero `x`, so the exact tier adds nothing to the second. -/
theorem dispatch_eq_lookup (op x y n : Nibble) : dispatch (wordOfNibbles op x y n) =
    lookupKey (if nibbleKey op y n then wordOfNibbles op 0 y n
      else if nibbleKey op 0 n then wordOfNibbles op 0 0 n else wordOfNibbles op 0 0 0) := by
  have none_iff : ∀ x y n, lookupKey (wordOfNibbles op x y n) = none ↔ ¬(x = 0 ∧ nibbleKey op y n = true) := fun x y n => by
    rw [lookupKey_eq_none_iff, mem_keys_iff]
  have h1 : dispatch (wordOfNibbles op x y n) = dispatch (wordOfNibbles op 0 y n) := by
    by_cases hx : x = 0
    · rw [hx]
    · have e1 : lookupKey (wordOfNibbles op x y n) = none := (none_iff x y n).2 (fun h => hx h.1)
      unfold dispatch
      rw [e1, and_F0FF, and_F00F, and_F000, and_F0FF, and_F00F, and_F000]
      cases lookupKey (wordOfNibbles op 0 y n) <;> rfl
  rw [h1]
  unfold dispatch
  rw [and_F0FF, and_F00F, and_F000]
  by_cases hy : nibbleKey op y n = true
  · rw [if_pos hy]
    have := (none_iff 0 y n).not.2 (by simp [hy])
    cases h : lookupKey (wordOfNibbles op 0 y n) with
    | none => exact absurd h this
    | some r => rfl
  · rw [if_neg hy, (none_iff 0 y n).2 (by simp [hy])]
    by_cases hn : nibbleKey op 0 n = true
    · rw [if_pos hn]
      have := (none_iff 0 0 n).not.2 (by simp [hn])
      cases h : lookupKey (wordOfNibbles op 0 0 n) with
      | none => exact absurd h this
      | some r => rfl
    · rw [if_neg hn, (none_iff 0 0 n).2 (by simp [hn])]

/-- The `8xyn` words. -/
def arithInstr (x y n : Nibble) : Instr :=
  if n = 1 then .orReg x y else if n = 2 then .andReg x y else if n = 3 then .xorReg x y
  else if n = 4 then .addReg x y else if n = 5 then .subReg x y else if n = 6 then .shr x y
  else if n = 7 then .subn x y else if n = 14 then .shl x y else .ldReg x y n

/-- The `Fxyn` words. -/
def miscInstr (x y n : Nibble) : Option Instr :=
  if n = 7 then some (.ldVxDt x y) else if n = 10 then some (.ldKey x y)
  else if y = 1 ∧ n = 5 then some (.ldDt x) else if y = 1 ∧ n = 8 then some (.ldSt x)
  else if y = 1 ∧ n = 14 then some (.addI x) else if y = 2 ∧ n = 9 then some (.ldF x)
  else if y = 3 ∧ n = 3 then some (.ldB x) else if y = 5 ∧ n = 5 then some (.storeRegs x)
  else if y = 6 ∧ n = 5 then some (.loadRegs x) else none

/-- The decoder by cases on the nibbles, the form proofs use. -/
def decodeByNibbles (w : Word) : Option Instr :=
  match (fieldOp w).val with
  | 0 => some (if fieldY w = 14 ∧ fieldN w = 0 then .cls (fieldX w)
      else if fieldY w = 14 ∧ fieldN w = 14 then .ret (fieldX w) else .sys (fieldNnn w))
  | 1 => some (.jp (fieldNnn w))
  | 2 => some (.call (fieldNnn w))
  | 3 => some (.seImm (fieldX w) (fieldKk w))
  | 4 => some (.sneImm (fieldX w) (fieldKk w))
  | 5 => some (.seReg (fieldX w) (fieldY w) (fieldN w))
  | 6 => some (.ldImm (fieldX w) (fieldKk w))
  | 7 => some (.addImm (fieldX w) (fieldKk w))
  | 8 => some (arithInstr (fieldX w) (fieldY w) (fieldN w))
  | 9 => some (.sneReg (fieldX w) (fieldY w) (fieldN w))
  | 10 => some (.ldI (fieldNnn w))
  | 11 => some (.jpV0 (fieldNnn w))
  | 12 => some (.rnd (fieldX w) (fieldKk w))
  | 13 => some (.drw (fieldX w) (fieldY w) (fieldN w))
  | 14 => if fieldY w = 9 ∧ fieldN w = 14 then some (.skp (fieldX w))
      else if fieldY w = 10 ∧ fieldN w = 1 then some (.sknp (fieldX w)) else none
  | _ => miscInstr (fieldX w) (fieldY w) (fieldN w)

/-- The masked word that the first successful tier looks up (or the last one tried). -/
def nibbleTier (op y n : Nibble) : Word :=
  if nibbleKey op y n then wordOfNibbles op 0 y n
  else if nibbleKey op 0 n then wordOfNibbles op 0 0 n else wordOfNibbles op 0 0 0

theorem nibbleTier_simple {op : Nibble} (y n : Nibble) (h : op ≠ 0 ∧ op ≠ 8 ∧ op ≠ 14 ∧ op ≠ 15) :
    nibbleTier op y n = wordOfNibbles op 0 0 0 := by
  obtain ⟨h0, h8, h14, h15⟩ := h
  unfold nibbleTier
  simp only [nibbleKey, h0, h8, h14, h15, if_false]
  by_cases hy : y = 0 <;> by_cases hn : n = 0 <;> simp [hy, hn]

theorem nibbleTier_arith (y n : Nibble) : nibbleTier 8 y n =
    if n ∈ ([1, 2, 3, 4, 5, 6, 7, 14] : List Nibble) then wordOfNibbles 8 0 0 n else wordOfNibbles 8 0 0 0 := by
  by_cases hy : y = 0
  · subst hy; revert n; decide
  · have h : nibbleTier 8 y n = nibbleTier 8 0 n := by
      have hk : nibbleKey 8 y n = false := by simp [nibbleKey, hy]
      unfold nibbleTier; rw [hk]
      by_cases hn : nibbleKey 8 0 n = true <;> simp [hn]
    rw [h]; clear h hy; revert n; decide

theorem nibbleTier_misc (y n : Nibble) : nibbleTier 15 y n =
    if n = 7 ∨ n = 10 then wordOfNibbles 15 0 0 n
    else if (y, n) ∈ ([(1, 14), (2, 9), (3, 3), (5, 5), (6, 5), (1, 5), (1, 8)] : List (Nibble × Nibble)) then
      wordOfNibbles 15 0 y n
    else wordOfNibbles 15 0 0 0 := by
  revert y n; decide

/-- The four-tier decoder is the decoder by cases. -/
theorem decodeWord_eq (w : Word) : decodeWord w = decodeByNibbles w := by
  have hd := dispatch_eq_lookup (fieldOp w) (fieldX w) (fieldY w) (fieldN w)
  rw [wordOfNibbles_fields] at hd
  have hd' : dispatch w = lookupKey (nibbleTier (fieldOp w) (fieldY w) (fieldN w)) := hd
  unfold decodeWord decodeByNibbles
  rw [hd']
  clear hd hd'
  generalize fieldOp w = op at *
  by_cases hs : op ≠ 0 ∧ op ≠ 8 ∧ op ≠ 14 ∧ op ≠ 15
  · rw [nibbleTier_simple _ _ hs]
    fin_cases op <;> first | rfl | (exfalso; revert hs; decide)
  · have : op = 0 ∨ op = 8 ∨ op = 14 ∨ op = 15 := by tauto
    clear hs
    rcases this with rfl | rfl | rfl | rfl
    · by_cases h1 : fieldY w = 14 ∧ fieldN w = 0
      · rw [h1.1, h1.2]; rfl
      · by_cases h2 : fieldY w = 14 ∧ fieldN w = 14
        · rw [h2.1, h2.2]; rfl
        · have : nibbleTier 0 (fieldY w) (fieldN w) = wordOfNibbles 0 0 0 0 := by
            revert h1 h2; generalize fieldY w = y; generalize fieldN w = n; revert y n; decide
          rw [this]; simp only [h1, h2, if_false]; rfl
    · rw [nibbleTier_arith]
      by_cases hn : fieldN w ∈ ([1, 2, 3, 4, 5, 6, 7, 14] : List Nibble)
      · rw [if_pos hn]
        simp only [List.mem_cons, List.not_mem_nil, or_false] at hn
        rcases hn with h | h | h | h | h | h | h | h <;> rw [h] <;> rfl
      · rw [if_neg hn]
        simp only [List.mem_cons, List.not_mem_nil, or_false, not_or] at hn
        obtain ⟨h1, h2, h3, h4, h5, h6, h7, h8⟩ := hn
        simp only [arithInstr, h1, h2, h3, h4, h5, h6, h7, h8, if_false]; rfl
    · by_cases h1 : fieldY w = 9 ∧ fieldN w = 14
      · rw [h1.1, h1.2]; rfl
      · by_cases h2 : fieldY w = 10 ∧ fieldN w = 1
        · rw [h2.1, h2.2]; rfl
        · have : nibbleTier 14 (fieldY w) (fieldN w) = wordOfNibbles 14 0 0 0 := by
            revert h1 h2; generalize fieldY w = y; generalize fieldN w = n; revert y n; decide
          rw [this]; simp only [h1, h2, if_false]; rfl
    · rw [nibbleTier_misc]
      by_cases hn : fieldN w = 7 ∨ fieldN w = 10
      · rw [if_pos hn]
        rcases hn with h | h <;> rw [h] <;> rfl
      · rw [if_neg hn]
        by_cases hm : (fieldY w, fieldN w) ∈
            ([(1, 14), (2, 9), (3, 3), (5, 5), (6, 5), (1, 5), (1, 8)] : List (Nibble × Nibble))
        · rw [if_pos hm]
          simp only [List.mem_cons, Prod.mk.injEq, List.not_mem_nil, or_false] at hm
          rcases hm with ⟨h, h'⟩ | ⟨h, h'⟩ | ⟨h, h'⟩ | ⟨h, h'⟩ | ⟨h, h'⟩ | ⟨h, h'⟩ | ⟨h, h'⟩ <;> rw [h, h'] <;> rfl
        · rw [if_neg hm]
          simp only [List.mem_cons, Prod.mk.injEq, List.not_mem_nil, or_false, not_or] at hm hn
          obtain ⟨h1, h2, h3, h4, h5, h6, h7⟩ := hm
          obtain ⟨g1, g2⟩ := hn
          simp only [miscInstr, g1, g2, h1, h2, h3, h4, h5, h6, h7, if_false]; rfl
end Sys2Proof
end

