-- ==== Sys2Proof/Laws/Framebuffer.lean ====
section
/-! SUPPORT. The laws of the framebuffer: pixels after a toggle, where coordinates land, what a run of toggles leaves,
and which coordinates a sprite names. -/

namespace Sys2Proof.Machine

/-! ### One pixel -/

theorem Framebuffer.pixel_toggle (fb : Framebuffer) (x x' : Fin 64) (y y' : Fin 32) :
    (fb.toggle x y).pixel x' y' = if x' = x ∧ y' = y then !fb.pixel x y else fb.pixel x' y' := by
  unfold Framebuffer.pixel Framebuffer.toggle
  by_cases hy : y' = y
  · subst hy
    by_cases hx : x' = x
    · subst hx; simp
    · have hv : x.val ≠ x'.val := fun e => hx (Fin.ext e.symm)
      simp [hx, hv]
  · have hv : y.val ≠ y'.val := fun e => hy (Fin.ext e.symm)
    simp [hy, hv]

@[simp] theorem Framebuffer.pixel_blank (x : Fin 64) (y : Fin 32) : Framebuffer.blank.pixel x y = false := by
  simp [Framebuffer.blank, Framebuffer.pixel]

/-- A grid is its pixels. -/
theorem Framebuffer.ext_pixel {fb fb' : Framebuffer} (h : ∀ x y, fb.pixel x y = fb'.pixel x y) : fb = fb' := by
  apply Vector.ext
  intro j hj
  apply Vector.ext
  intro i hi
  exact h ⟨i, hi⟩ ⟨j, hj⟩

/-! ### Coordinates (R221, R222) -/

theorem wrapOnce_of_nat {size c : Nat} : wrapOnce size (c : Int) = if size ≤ c then (c : Int) - size else c := by
  unfold wrapOnce
  by_cases h : size ≤ c
  · simp [h]
  · have h1 : ¬((size : Int) ≤ c) := by omega
    have h2 : ¬((c : Int) < 0) := by omega
    simp [h, h1, h2]

/-- The coordinates that reach a pixel are exactly -64 to 127 and -32 to 63. -/
theorem gridCoord_isSome_iff (x y : Int) :
    (gridCoord x y).isSome = true ↔ (-64 ≤ x ∧ x ≤ 127) ∧ (-32 ≤ y ∧ y ≤ 63) := by
  have hx : (0 ≤ wrapOnce 64 x ∧ wrapOnce 64 x < 64) ↔ (-64 ≤ x ∧ x ≤ 127) := by
    unfold wrapOnce; split <;> [skip; split] <;> omega
  have hy : (0 ≤ wrapOnce 32 y ∧ wrapOnce 32 y < 32) ↔ (-32 ≤ y ∧ y ≤ 63) := by
    unfold wrapOnce; split <;> [skip; split] <;> omega
  unfold gridCoord
  rw [← hx, ← hy]
  split
  · next h => split <;> simp_all
  · next h => simp_all

/-- A coordinate that reaches a pixel reaches the one congruent to it. -/
theorem gridCoord_some {x y : Int} {px : Fin 64} {py : Fin 32} (h : gridCoord x y = some (px, py)) :
    (px.val : Int) = x % 64 ∧ (py.val : Int) = y % 32 := by
  unfold gridCoord at h
  split at h
  · next hx =>
    split at h
    · next hy =>
      simp only [Option.some.injEq, Prod.mk.injEq] at h
      obtain ⟨rfl, rfl⟩ := h
      constructor
      · have e : wrapOnce 64 x = x % 64 := by
          unfold wrapOnce at hx ⊢; split <;> [skip; split] <;> simp_all <;> omega
        simp only [← e]; omega
      · have e : wrapOnce 32 y = y % 32 := by
          unfold wrapOnce at hy ⊢; split <;> [skip; split] <;> simp_all <;> omega
        simp only [← e]; omega
    · exact absurd h (by simp)
  · exact absurd h (by simp)

/-- `SetPixel` by where its coordinates land. -/
theorem Framebuffer.setPixel_eq (fb : Framebuffer) (x y : Int) :
    fb.setPixel x y = (gridCoord x y).map (fun p => (fb.toggle p.1 p.2, fb.pixel p.1 p.2)) := by
  unfold Framebuffer.setPixel
  cases h : gridCoord x y with
  | none => rfl
  | some p => simp [Framebuffer.pixel_toggle]

/-! ### A run of toggles -/

/-- A draw completes exactly when every coordinate reaches a pixel. -/
theorem Framebuffer.drawPoints_isSome_iff (ps : List (Int × Int)) (fb : Framebuffer) (c : Bool) :
    (fb.drawPoints c ps).isSome = true ↔ ∀ p ∈ ps, (gridCoord p.1 p.2).isSome = true := by
  induction ps generalizing fb c with
  | nil => simp [Framebuffer.drawPoints]
  | cons p ps ih =>
    simp only [Framebuffer.drawPoints, Framebuffer.setPixel_eq, List.mem_cons, forall_eq_or_imp]
    cases h : gridCoord p.1 p.2 with
    | none => simp
    | some q => simp [ih]

/-- What a completed run of toggles leaves, where no two coordinates land on one pixel: each named pixel is toggled
once, and the collision says whether some named pixel was on. -/
theorem Framebuffer.drawPoints_spec {ps : List (Int × Int)} {fb fb' : Framebuffer} {c c' : Bool}
    (hd : ps.Pairwise (fun p q => gridCoord p.1 p.2 ≠ gridCoord q.1 q.2))
    (h : fb.drawPoints c ps = some (fb', c')) :
    (∀ x y, fb'.pixel x y = (fb.pixel x y ^^ decide (∃ p ∈ ps, gridCoord p.1 p.2 = some (x, y)))) ∧
    (c' = true ↔ c = true ∨ ∃ x y, fb.pixel x y = true ∧ ∃ p ∈ ps, gridCoord p.1 p.2 = some (x, y)) := by
  induction ps generalizing fb c with
  | nil =>
    simp only [Framebuffer.drawPoints, Option.some.injEq, Prod.mk.injEq] at h
    obtain ⟨rfl, rfl⟩ := h
    simp
  | cons p ps ih =>
    rw [List.pairwise_cons] at hd
    simp only [Framebuffer.drawPoints, Framebuffer.setPixel_eq] at h
    cases hg : gridCoord p.1 p.2 with
    | none => simp [hg] at h
    | some q =>
      obtain ⟨qx, qy⟩ := q
      simp only [hg, Option.map_some] at h
      obtain ⟨h1, h2⟩ := ih hd.2 h
      have hne : ∀ r ∈ ps, gridCoord r.1 r.2 ≠ some (qx, qy) := fun r hr e => hd.1 r hr (by rw [hg, e])
      constructor
      · intro x y
        rw [h1 x y, Framebuffer.pixel_toggle]
        by_cases hq : x = qx ∧ y = qy
        · obtain ⟨rfl, rfl⟩ := hq
          have e1 : ¬∃ r ∈ ps, gridCoord r.1 r.2 = some (x, y) := fun ⟨r, hr, e⟩ => hne r hr e
          simp [e1, hg]
        · have e3 : gridCoord p.1 p.2 ≠ some (x, y) := fun e => hq (by
            rw [hg] at e; simp only [Option.some.injEq, Prod.mk.injEq] at e; exact ⟨e.1.symm, e.2.symm⟩)
          simp [hq, e3]
      · rw [h2]
        simp only [Bool.or_eq_true, List.mem_cons]
        constructor
        · rintro ((hc | hp) | ⟨x, y, hp, r, hr, e⟩)
          · exact .inl hc
          · exact .inr ⟨qx, qy, hp, p, .inl rfl, hg⟩
          · rw [Framebuffer.pixel_toggle] at hp
            by_cases hq : x = qx ∧ y = qy
            · obtain ⟨rfl, rfl⟩ := hq; exact absurd e (hne r hr)
            · rw [if_neg hq] at hp; exact .inr ⟨x, y, hp, r, .inr hr, e⟩
        · rintro (hc | ⟨x, y, hp, r, hr | hr, e⟩)
          · exact .inl (.inl hc)
          · subst hr
            rw [hg] at e
            simp only [Option.some.injEq, Prod.mk.injEq] at e
            obtain ⟨rfl, rfl⟩ := e
            exact .inl (.inr hp)
          · have hq : ¬(x = qx ∧ y = qy) := by rintro ⟨rfl, rfl⟩; exact hne r hr e
            exact .inr ⟨x, y, by rw [Framebuffer.pixel_toggle, if_neg hq]; exact hp, r, hr, e⟩

/-! ### The coordinates of a sprite (R225) -/

theorem mem_rowPoints (vx y : Nat) (b : Byte) (p : Int × Int) :
    p ∈ rowPoints vx y b ↔ ∃ c, c < 8 ∧ b.getLsbD (7 - c) = true ∧ p = (((vx + c : Nat) : Int), (y : Int)) := by
  unfold rowPoints
  simp only [List.mem_filterMap, List.mem_range]
  constructor
  · rintro ⟨c, hc, h⟩
    by_cases hb : b.getLsbD (7 - c) = true
    · simp only [hb, if_true, Option.some.injEq] at h; exact ⟨c, hc, hb, h.symm⟩
    · simp [hb] at h
  · rintro ⟨c, hc, hb, rfl⟩
    exact ⟨c, hc, by simp [hb]⟩

/-- A sprite names column `vx + c` and row `vy + r` exactly for the set bits of its rows. -/
theorem mem_spritePoints (vx : Nat) (rows : List Byte) (vy : Nat) (p : Int × Int) :
    p ∈ spritePoints vx vy rows ↔
      ∃ r c, ∃ h : r < rows.length, c < 8 ∧ rows[r].getLsbD (7 - c) = true ∧
        p = (((vx + c : Nat) : Int), ((vy + r : Nat) : Int)) := by
  induction rows generalizing vy with
  | nil => simp [spritePoints]
  | cons b bs ih =>
    simp only [spritePoints, List.mem_append, mem_rowPoints, ih]
    constructor
    · rintro (⟨c, hc, hb, rfl⟩ | ⟨r, c, hr, hc, hb, rfl⟩)
      · exact ⟨0, c, by simp, hc, hb, rfl⟩
      · exact ⟨r + 1, c, by simp; omega, hc, by simpa using hb, by simp; omega⟩
    · rintro ⟨r, c, hr, hc, hb, rfl⟩
      cases r with
      | zero => exact .inl ⟨c, hc, hb, rfl⟩
      | succ r =>
        exact .inr ⟨r, c, by simp at hr; omega, hc, by simpa using hb, by simp; omega⟩

end Sys2Proof.Machine
end

