-- ==== Sys2Proof/Laws/Memory.lean ====
section
/-! SUPPORT. The laws of memory: reading after writing, ranges of bytes, and that every operation keeps the canonical
form. -/

namespace Sys2Proof

@[simp] theorem Config.memSize_eq : Config.memSize = 4096 := rfl

@[simp] theorem Config.progBase_eq : Config.progBase = 0x200 := rfl

@[simp] theorem Config.maxProg_eq : Config.maxProg = 3584 := rfl

end Sys2Proof

namespace Sys2Proof.Machine

/-! ### One byte -/

theorem Memory.byteAt_erase_same (m : Memory) (a : Nat) : (m.erase a).byteAt a = coldByte a := by
  induction m with
  | nil => rfl
  | cons c m ih =>
    by_cases h : c.1 = a
    · simpa [Memory.erase, List.filter_cons, h] using ih
    · have hb : (c.1 != a) = true := by simpa using h
      simp only [Memory.erase, List.filter_cons, hb, if_true, Memory.byteAt, h, if_false]
      exact ih

theorem Memory.byteAt_erase_ne (m : Memory) {a q : Nat} (hq : q ≠ a) : (m.erase a).byteAt q = m.byteAt q := by
  induction m with
  | nil => rfl
  | cons c m ih =>
    by_cases h : c.1 = a
    · have hc : c.1 ≠ q := fun e => hq (e.symm.trans h)
      have e : Memory.byteAt (Memory.erase m a) q = Memory.byteAt m q := ih
      simpa [Memory.erase, List.filter_cons, h, Memory.byteAt, hc, hq.symm] using e
    · have hb : (c.1 != a) = true := by simpa using h
      have e : Memory.byteAt (List.filter (fun c => c.1 != a) m) q = Memory.byteAt m q := ih
      simp only [Memory.erase, List.filter_cons, hb, if_true, Memory.byteAt, e]

theorem Memory.byteAt_place_same (m : Memory) (a : Nat) (b : Byte) (hm : ∀ c ∈ m, c.1 ≠ a) :
    (m.place a b).byteAt a = b := by
  induction m with
  | nil => simp [Memory.place, Memory.byteAt]
  | cons c m ih =>
    have h1 : c.1 ≠ a := hm c (by simp)
    by_cases h : a < c.1
    · simp [Memory.place, h, Memory.byteAt]
    · simp only [Memory.place, h, if_false, Memory.byteAt, h1]
      exact ih (fun d hd => hm d (by simp [hd]))

theorem Memory.byteAt_place_ne (m : Memory) {a q : Nat} (b : Byte) (hq : q ≠ a) :
    (m.place a b).byteAt q = m.byteAt q := by
  induction m with
  | nil => simp [Memory.place, Memory.byteAt, hq.symm]
  | cons c m ih =>
    by_cases h : a < c.1
    · simp [Memory.place, h, Memory.byteAt, hq.symm]
    · simp only [Memory.place, h, if_false, Memory.byteAt, ih]

theorem Memory.erase_ne (m : Memory) (a : Nat) : ∀ c ∈ m.erase a, c.1 ≠ a := by
  intro c hc
  simpa using (List.mem_filter.1 hc).2

/-- Reading after a write: the value written at that address, the old one elsewhere (20_memory.md R65). No premise on
the list: it holds of every memory. -/
theorem Memory.byteAt_setByte (m : Memory) (a q : Nat) (b : Byte) :
    (m.setByte a b).byteAt q = if q = a then b else m.byteAt q := by
  unfold Memory.setByte
  by_cases hq : q = a
  · subst hq
    simp only [if_true]
    split
    · next hb => rw [Memory.byteAt_erase_same, hb]
    · exact Memory.byteAt_place_same _ _ _ (Memory.erase_ne m q)
  · simp only [hq, if_false]
    split
    · exact Memory.byteAt_erase_ne m hq
    · rw [Memory.byteAt_place_ne _ _ hq, Memory.byteAt_erase_ne m hq]

/-! ### Ranges -/

/-- Reading after a range is written: the bytes written inside it, the old contents outside. -/
theorem Memory.byteAt_writeBytes (bs : List Byte) (m : Memory) (base q : Nat) :
    (m.writeBytes base bs).byteAt q =
      if base ≤ q ∧ q < base + bs.length then bs.getD (q - base) 0 else m.byteAt q := by
  induction bs generalizing m base with
  | nil =>
    have h : ¬(base ≤ q ∧ q < base + ([] : List Byte).length) := by simp only [List.length_nil]; omega
    simp only [Memory.writeBytes, h, if_false]
  | cons b bs ih =>
    simp only [Memory.writeBytes, ih, Memory.byteAt_setByte, List.length_cons]
    by_cases h1 : q = base
    · subst h1
      have h2 : ¬(q + 1 ≤ q ∧ q < q + 1 + bs.length) := by omega
      have h3 : q ≤ q ∧ q < q + (bs.length + 1) := by omega
      simp [h3]
    · by_cases h2 : base + 1 ≤ q ∧ q < base + 1 + bs.length
      · have h3 : base ≤ q ∧ q < base + (bs.length + 1) := by omega
        have h4 : q - base = (q - (base + 1)) + 1 := by omega
        simp only [h2, h3, and_self, if_true, h4, List.getD_cons_succ]
      · have h3 : ¬(base ≤ q ∧ q < base + (bs.length + 1)) := by omega
        simp only [h2, h3, if_false, h1]

@[simp] theorem Memory.length_readBytes (m : Memory) (base n : Nat) : (m.readBytes base n).length = n := by
  induction n generalizing base with
  | zero => rfl
  | succ n ih => simp [Memory.readBytes, ih]

theorem Memory.getElem_readBytes (m : Memory) (base n k : Nat) (h : k < (m.readBytes base n).length) :
    (m.readBytes base n)[k] = m.byteAt (base + k) := by
  induction n generalizing base k with
  | zero => simp at h
  | succ n ih =>
    cases k with
    | zero => rfl
    | succ k =>
      have h' : k < (m.readBytes (base + 1) n).length := by simpa [Memory.readBytes] using h
      have := ih (base + 1) k h'
      simpa [Memory.readBytes, Nat.add_comm, Nat.add_left_comm] using this

/-- Zeroing from `base` up: below it nothing changes, from it on an address reads as at a cold reset. -/
theorem Memory.byteAt_clearFrom (m : Memory) (base q : Nat) :
    (m.clearFrom base).byteAt q = if q < base then m.byteAt q else coldByte q := by
  induction m with
  | nil => simp [Memory.clearFrom, Memory.byteAt]
  | cons c m ih =>
    have e : Memory.byteAt (List.filter (fun c => decide (c.1 < base)) m) q =
        if q < base then Memory.byteAt m q else coldByte q := ih
    by_cases h : c.1 < base
    · simp only [Memory.clearFrom, List.filter_cons, h, decide_true, if_true, Memory.byteAt, e]
      by_cases hc : c.1 = q
      · have hq : q < base := hc ▸ h
        simp [hc, hq]
      · simp [hc]
    · have hd : Memory.clearFrom (c :: m) base = List.filter (fun c => decide (c.1 < base)) m := by
        simp [Memory.clearFrom, h]
      rw [hd, e]
      by_cases hq : q < base
      · have hc : c.1 ≠ q := fun e' => h (e' ▸ hq)
        simp [hq, hc, Memory.byteAt]
      · simp [hq]

/-- Outside the font an address holds zero after a cold reset (10_state.md R39). -/
theorem coldByte_above_font (a : Nat) (h : 0x50 ≤ a) : coldByte a = 0 := by
  have hl : fontBytes.length = 80 := by decide
  have h' : ¬(fontBase ≤ a ∧ a < fontBase + fontBytes.length) := by
    rw [hl]; simp only [fontBase]; omega
  simp [coldByte, h']

/-! ### The canonical form -/

theorem Memory.risingFrom_mono {m : Memory} {l l' : Nat} (hl : l' ≤ l) (h : Memory.risingFrom l m = true) :
    Memory.risingFrom l' m = true := by
  cases m with
  | nil => rfl
  | cons c m =>
    simp only [Memory.risingFrom, Bool.and_eq_true, decide_eq_true_eq] at h ⊢
    exact ⟨by omega, h.2⟩

theorem Memory.risingFrom_filter {m : Memory} {l : Nat} (p : Host.Cell → Bool) (h : Memory.risingFrom l m = true) :
    Memory.risingFrom l (m.filter p) = true := by
  induction m generalizing l with
  | nil => rfl
  | cons c m ih =>
    simp only [Memory.risingFrom, Bool.and_eq_true, decide_eq_true_eq] at h
    have h2 := ih h.2
    by_cases hp : p c = true
    · simp only [List.filter_cons, hp, if_true, Memory.risingFrom, Bool.and_eq_true, decide_eq_true_eq]
      exact ⟨h.1, h2⟩
    · simp only [List.filter_cons, hp]
      exact Memory.risingFrom_mono (by omega) h2

theorem Memory.risingFrom_place {m : Memory} {l a : Nat} (b : Byte) (hla : l ≤ a) (hm : ∀ c ∈ m, c.1 ≠ a)
    (h : Memory.risingFrom l m = true) : Memory.risingFrom l (m.place a b) = true := by
  induction m generalizing l with
  | nil => simpa [Memory.place, Memory.risingFrom] using hla
  | cons c m ih =>
    have h1 : c.1 ≠ a := hm c (by simp)
    simp only [Memory.risingFrom, Bool.and_eq_true, decide_eq_true_eq] at h
    by_cases ha : a < c.1
    · simp only [Memory.place, ha, if_true, Memory.risingFrom, Bool.and_eq_true, decide_eq_true_eq]
      exact ⟨hla, by omega, h.2⟩
    · simp only [Memory.place, ha, if_false, Memory.risingFrom, Bool.and_eq_true, decide_eq_true_eq]
      exact ⟨h.1, ih (by omega) (fun d hd => hm d (by simp [hd])) h.2⟩

theorem Memory.mem_place {m : Memory} {a : Nat} {b : Byte} {c : Host.Cell} (h : c ∈ m.place a b) :
    c = (a, b) ∨ c ∈ m := by
  induction m with
  | nil => simpa [Memory.place] using h
  | cons d m ih =>
    by_cases ha : a < d.1
    · simpa [Memory.place, ha] using h
    · simp only [Memory.place, ha, if_false, List.mem_cons] at h
      rcases h with h | h
      · exact .inr (by simp [h])
      · rcases ih h with h | h
        · exact .inl h
        · exact .inr (by simp [h])

theorem Memory.wf_filter {m : Memory} (p : Host.Cell → Bool) (h : m.wf = true) :
    Memory.wf (List.filter p m) = true := by
  simp only [Memory.wf, Bool.and_eq_true, List.all_eq_true] at h ⊢
  exact ⟨Memory.risingFrom_filter p h.1, fun c hc => h.2 c (List.mem_filter.1 hc).1⟩

/-- Writing a byte inside memory keeps the canonical form. -/
theorem Memory.wf_setByte {m : Memory} {a : Nat} (b : Byte) (ha : a < Config.memSize) (h : m.wf = true) :
    (m.setByte a b).wf = true := by
  have he : (m.erase a).wf = true := Memory.wf_filter _ h
  unfold Memory.setByte
  split
  · exact he
  · next hb =>
    simp only [Memory.wf, Bool.and_eq_true, List.all_eq_true] at he ⊢
    refine ⟨Memory.risingFrom_place b (Nat.zero_le a) (Memory.erase_ne m a) he.1, fun c hc => ?_⟩
    rcases Memory.mem_place hc with rfl | hc
    · exact ⟨decide_eq_true ha, by simpa using hb⟩
    · exact he.2 c hc

/-- Writing bytes inside memory keeps the canonical form. -/
theorem Memory.wf_writeBytes (bs : List Byte) {m : Memory} {base : Nat} (hb : base + bs.length ≤ Config.memSize)
    (h : m.wf = true) : (m.writeBytes base bs).wf = true := by
  induction bs generalizing m base with
  | nil => exact h
  | cons b bs ih =>
    simp only [List.length_cons] at hb
    exact ih (by omega) (Memory.wf_setByte b (by omega) h)

/-- Zeroing from an address up keeps the canonical form. -/
theorem Memory.wf_clearFrom {m : Memory} (base : Nat) (h : m.wf = true) : (m.clearFrom base).wf = true :=
  Memory.wf_filter _ h

/-- What the address check says (20_memory.md R66). -/
theorem rangeOk_iff (base : Word) (n : Nat) : rangeOk base n = true ↔ n = 0 ∨ base.toNat + n ≤ 4096 := by
  unfold rangeOk
  rw [Bool.or_eq_true, beq_iff_eq, decide_eq_true_eq]
  rfl

end Sys2Proof.Machine
end

