-- ==== Sys2Proof/Laws/State.lean ====
section
/-! SUPPORT. One lemma per field and named update of the state, and the readings of registers after a write. -/

namespace Sys2Proof.Machine

variable (s : State)

/-! ### setReg -/

@[simp] theorem State.setReg_i (r : Reg) (b : Byte) : (s.setReg r b).i = s.i := rfl
@[simp] theorem State.setReg_pc (r : Reg) (b : Byte) : (s.setReg r b).pc = s.pc := rfl
@[simp] theorem State.setReg_sp (r : Reg) (b : Byte) : (s.setReg r b).sp = s.sp := rfl
@[simp] theorem State.setReg_stack (r : Reg) (b : Byte) : (s.setReg r b).stack = s.stack := rfl
@[simp] theorem State.setReg_dt (r : Reg) (b : Byte) : (s.setReg r b).dt = s.dt := rfl
@[simp] theorem State.setReg_st (r : Reg) (b : Byte) : (s.setReg r b).st = s.st := rfl
@[simp] theorem State.setReg_key (r : Reg) (b : Byte) : (s.setReg r b).key = s.key := rfl
@[simp] theorem State.setReg_wait (r : Reg) (b : Byte) : (s.setReg r b).wait = s.wait := rfl
@[simp] theorem State.setReg_waitReg (r : Reg) (b : Byte) : (s.setReg r b).waitReg = s.waitReg := rfl
@[simp] theorem State.setReg_mem (r : Reg) (b : Byte) : (s.setReg r b).mem = s.mem := rfl
@[simp] theorem State.setReg_fb (r : Reg) (b : Byte) : (s.setReg r b).fb = s.fb := rfl
@[simp] theorem State.setReg_fbChanged (r : Reg) (b : Byte) : (s.setReg r b).fbChanged = s.fbChanged := rfl
@[simp] theorem State.setReg_fault (r : Reg) (b : Byte) : (s.setReg r b).fault = s.fault := rfl
@[simp] theorem State.setReg_drawCount (r : Reg) (b : Byte) : (s.setReg r b).drawCount = s.drawCount := rfl
@[simp] theorem State.setReg_reports (r : Reg) (b : Byte) : (s.setReg r b).reports = s.reports := rfl

/-! ### setFlag -/

@[simp] theorem State.setFlag_i (f : Bool) : (s.setFlag f).i = s.i := rfl
@[simp] theorem State.setFlag_pc (f : Bool) : (s.setFlag f).pc = s.pc := rfl
@[simp] theorem State.setFlag_sp (f : Bool) : (s.setFlag f).sp = s.sp := rfl
@[simp] theorem State.setFlag_stack (f : Bool) : (s.setFlag f).stack = s.stack := rfl
@[simp] theorem State.setFlag_dt (f : Bool) : (s.setFlag f).dt = s.dt := rfl
@[simp] theorem State.setFlag_st (f : Bool) : (s.setFlag f).st = s.st := rfl
@[simp] theorem State.setFlag_key (f : Bool) : (s.setFlag f).key = s.key := rfl
@[simp] theorem State.setFlag_wait (f : Bool) : (s.setFlag f).wait = s.wait := rfl
@[simp] theorem State.setFlag_waitReg (f : Bool) : (s.setFlag f).waitReg = s.waitReg := rfl
@[simp] theorem State.setFlag_mem (f : Bool) : (s.setFlag f).mem = s.mem := rfl
@[simp] theorem State.setFlag_fb (f : Bool) : (s.setFlag f).fb = s.fb := rfl
@[simp] theorem State.setFlag_fbChanged (f : Bool) : (s.setFlag f).fbChanged = s.fbChanged := rfl
@[simp] theorem State.setFlag_fault (f : Bool) : (s.setFlag f).fault = s.fault := rfl
@[simp] theorem State.setFlag_drawCount (f : Bool) : (s.setFlag f).drawCount = s.drawCount := rfl
@[simp] theorem State.setFlag_reports (f : Bool) : (s.setFlag f).reports = s.reports := rfl

/-! ### setResultFlag -/

@[simp] theorem State.setResultFlag_i (o : VfWriteOrder) (x : Reg) (r : Byte) (f : Bool) : (s.setResultFlag o x r f).i = s.i := by cases o <;> rfl
@[simp] theorem State.setResultFlag_pc (o : VfWriteOrder) (x : Reg) (r : Byte) (f : Bool) : (s.setResultFlag o x r f).pc = s.pc := by cases o <;> rfl
@[simp] theorem State.setResultFlag_sp (o : VfWriteOrder) (x : Reg) (r : Byte) (f : Bool) : (s.setResultFlag o x r f).sp = s.sp := by cases o <;> rfl
@[simp] theorem State.setResultFlag_stack (o : VfWriteOrder) (x : Reg) (r : Byte) (f : Bool) : (s.setResultFlag o x r f).stack = s.stack := by cases o <;> rfl
@[simp] theorem State.setResultFlag_dt (o : VfWriteOrder) (x : Reg) (r : Byte) (f : Bool) : (s.setResultFlag o x r f).dt = s.dt := by cases o <;> rfl
@[simp] theorem State.setResultFlag_st (o : VfWriteOrder) (x : Reg) (r : Byte) (f : Bool) : (s.setResultFlag o x r f).st = s.st := by cases o <;> rfl
@[simp] theorem State.setResultFlag_key (o : VfWriteOrder) (x : Reg) (r : Byte) (f : Bool) : (s.setResultFlag o x r f).key = s.key := by cases o <;> rfl
@[simp] theorem State.setResultFlag_wait (o : VfWriteOrder) (x : Reg) (r : Byte) (f : Bool) : (s.setResultFlag o x r f).wait = s.wait := by cases o <;> rfl
@[simp] theorem State.setResultFlag_waitReg (o : VfWriteOrder) (x : Reg) (r : Byte) (f : Bool) : (s.setResultFlag o x r f).waitReg = s.waitReg := by cases o <;> rfl
@[simp] theorem State.setResultFlag_mem (o : VfWriteOrder) (x : Reg) (r : Byte) (f : Bool) : (s.setResultFlag o x r f).mem = s.mem := by cases o <;> rfl
@[simp] theorem State.setResultFlag_fb (o : VfWriteOrder) (x : Reg) (r : Byte) (f : Bool) : (s.setResultFlag o x r f).fb = s.fb := by cases o <;> rfl
@[simp] theorem State.setResultFlag_fbChanged (o : VfWriteOrder) (x : Reg) (r : Byte) (f : Bool) : (s.setResultFlag o x r f).fbChanged = s.fbChanged := by cases o <;> rfl
@[simp] theorem State.setResultFlag_fault (o : VfWriteOrder) (x : Reg) (r : Byte) (f : Bool) : (s.setResultFlag o x r f).fault = s.fault := by cases o <;> rfl
@[simp] theorem State.setResultFlag_drawCount (o : VfWriteOrder) (x : Reg) (r : Byte) (f : Bool) : (s.setResultFlag o x r f).drawCount = s.drawCount := by cases o <;> rfl
@[simp] theorem State.setResultFlag_reports (o : VfWriteOrder) (x : Reg) (r : Byte) (f : Bool) : (s.setResultFlag o x r f).reports = s.reports := by cases o <;> rfl

/-! ### enterFault -/

@[simp] theorem State.enterFault_v (c : FaultCause) (a w : Word) : (s.enterFault c a w).v = s.v := rfl
@[simp] theorem State.enterFault_i (c : FaultCause) (a w : Word) : (s.enterFault c a w).i = s.i := rfl
@[simp] theorem State.enterFault_pc (c : FaultCause) (a w : Word) : (s.enterFault c a w).pc = s.pc := rfl
@[simp] theorem State.enterFault_sp (c : FaultCause) (a w : Word) : (s.enterFault c a w).sp = s.sp := rfl
@[simp] theorem State.enterFault_stack (c : FaultCause) (a w : Word) : (s.enterFault c a w).stack = s.stack := rfl
@[simp] theorem State.enterFault_dt (c : FaultCause) (a w : Word) : (s.enterFault c a w).dt = s.dt := rfl
@[simp] theorem State.enterFault_st (c : FaultCause) (a w : Word) : (s.enterFault c a w).st = s.st := rfl
@[simp] theorem State.enterFault_key (c : FaultCause) (a w : Word) : (s.enterFault c a w).key = s.key := rfl
@[simp] theorem State.enterFault_wait (c : FaultCause) (a w : Word) : (s.enterFault c a w).wait = s.wait := rfl
@[simp] theorem State.enterFault_waitReg (c : FaultCause) (a w : Word) : (s.enterFault c a w).waitReg = s.waitReg := rfl
@[simp] theorem State.enterFault_mem (c : FaultCause) (a w : Word) : (s.enterFault c a w).mem = s.mem := rfl
@[simp] theorem State.enterFault_fb (c : FaultCause) (a w : Word) : (s.enterFault c a w).fb = s.fb := rfl
@[simp] theorem State.enterFault_fbChanged (c : FaultCause) (a w : Word) : (s.enterFault c a w).fbChanged = s.fbChanged := rfl
@[simp] theorem State.enterFault_drawCount (c : FaultCause) (a w : Word) : (s.enterFault c a w).drawCount = s.drawCount := rfl
@[simp] theorem State.enterFault_reports (c : FaultCause) (a w : Word) : (s.enterFault c a w).reports = s.reports := rfl

/-! ### raise -/

@[simp] theorem State.raise_v (c : FaultCause) (j : Instr) : (s.raise c j).v = s.v := rfl
@[simp] theorem State.raise_i (c : FaultCause) (j : Instr) : (s.raise c j).i = s.i := rfl
@[simp] theorem State.raise_pc (c : FaultCause) (j : Instr) : (s.raise c j).pc = s.pc := rfl
@[simp] theorem State.raise_sp (c : FaultCause) (j : Instr) : (s.raise c j).sp = s.sp := rfl
@[simp] theorem State.raise_stack (c : FaultCause) (j : Instr) : (s.raise c j).stack = s.stack := rfl
@[simp] theorem State.raise_dt (c : FaultCause) (j : Instr) : (s.raise c j).dt = s.dt := rfl
@[simp] theorem State.raise_st (c : FaultCause) (j : Instr) : (s.raise c j).st = s.st := rfl
@[simp] theorem State.raise_key (c : FaultCause) (j : Instr) : (s.raise c j).key = s.key := rfl
@[simp] theorem State.raise_wait (c : FaultCause) (j : Instr) : (s.raise c j).wait = s.wait := rfl
@[simp] theorem State.raise_waitReg (c : FaultCause) (j : Instr) : (s.raise c j).waitReg = s.waitReg := rfl
@[simp] theorem State.raise_mem (c : FaultCause) (j : Instr) : (s.raise c j).mem = s.mem := rfl
@[simp] theorem State.raise_fb (c : FaultCause) (j : Instr) : (s.raise c j).fb = s.fb := rfl
@[simp] theorem State.raise_fbChanged (c : FaultCause) (j : Instr) : (s.raise c j).fbChanged = s.fbChanged := rfl
@[simp] theorem State.raise_drawCount (c : FaultCause) (j : Instr) : (s.raise c j).drawCount = s.drawCount := rfl
@[simp] theorem State.raise_reports (c : FaultCause) (j : Instr) : (s.raise c j).reports = s.reports := rfl

/-! ### raiseFetch -/

@[simp] theorem State.raiseFetch_v : (s.raiseFetch).v = s.v := rfl
@[simp] theorem State.raiseFetch_i : (s.raiseFetch).i = s.i := rfl
@[simp] theorem State.raiseFetch_pc : (s.raiseFetch).pc = s.pc := rfl
@[simp] theorem State.raiseFetch_sp : (s.raiseFetch).sp = s.sp := rfl
@[simp] theorem State.raiseFetch_stack : (s.raiseFetch).stack = s.stack := rfl
@[simp] theorem State.raiseFetch_dt : (s.raiseFetch).dt = s.dt := rfl
@[simp] theorem State.raiseFetch_st : (s.raiseFetch).st = s.st := rfl
@[simp] theorem State.raiseFetch_key : (s.raiseFetch).key = s.key := rfl
@[simp] theorem State.raiseFetch_wait : (s.raiseFetch).wait = s.wait := rfl
@[simp] theorem State.raiseFetch_waitReg : (s.raiseFetch).waitReg = s.waitReg := rfl
@[simp] theorem State.raiseFetch_mem : (s.raiseFetch).mem = s.mem := rfl
@[simp] theorem State.raiseFetch_fb : (s.raiseFetch).fb = s.fb := rfl
@[simp] theorem State.raiseFetch_fbChanged : (s.raiseFetch).fbChanged = s.fbChanged := rfl
@[simp] theorem State.raiseFetch_drawCount : (s.raiseFetch).drawCount = s.drawCount := rfl
@[simp] theorem State.raiseFetch_reports : (s.raiseFetch).reports = s.reports := rfl

/-! ### skipIf -/

@[simp] theorem State.skipIf_v (c : Bool) : (s.skipIf c).v = s.v := by cases c <;> rfl
@[simp] theorem State.skipIf_i (c : Bool) : (s.skipIf c).i = s.i := by cases c <;> rfl
@[simp] theorem State.skipIf_sp (c : Bool) : (s.skipIf c).sp = s.sp := by cases c <;> rfl
@[simp] theorem State.skipIf_stack (c : Bool) : (s.skipIf c).stack = s.stack := by cases c <;> rfl
@[simp] theorem State.skipIf_dt (c : Bool) : (s.skipIf c).dt = s.dt := by cases c <;> rfl
@[simp] theorem State.skipIf_st (c : Bool) : (s.skipIf c).st = s.st := by cases c <;> rfl
@[simp] theorem State.skipIf_key (c : Bool) : (s.skipIf c).key = s.key := by cases c <;> rfl
@[simp] theorem State.skipIf_wait (c : Bool) : (s.skipIf c).wait = s.wait := by cases c <;> rfl
@[simp] theorem State.skipIf_waitReg (c : Bool) : (s.skipIf c).waitReg = s.waitReg := by cases c <;> rfl
@[simp] theorem State.skipIf_mem (c : Bool) : (s.skipIf c).mem = s.mem := by cases c <;> rfl
@[simp] theorem State.skipIf_fb (c : Bool) : (s.skipIf c).fb = s.fb := by cases c <;> rfl
@[simp] theorem State.skipIf_fbChanged (c : Bool) : (s.skipIf c).fbChanged = s.fbChanged := by cases c <;> rfl
@[simp] theorem State.skipIf_fault (c : Bool) : (s.skipIf c).fault = s.fault := by cases c <;> rfl
@[simp] theorem State.skipIf_drawCount (c : Bool) : (s.skipIf c).drawCount = s.drawCount := by cases c <;> rfl
@[simp] theorem State.skipIf_reports (c : Bool) : (s.skipIf c).reports = s.reports := by cases c <;> rfl

/-! ### advance -/

@[simp] theorem State.advance_v : (s.advance).v = s.v := rfl
@[simp] theorem State.advance_i : (s.advance).i = s.i := rfl
@[simp] theorem State.advance_sp : (s.advance).sp = s.sp := rfl
@[simp] theorem State.advance_stack : (s.advance).stack = s.stack := rfl
@[simp] theorem State.advance_dt : (s.advance).dt = s.dt := rfl
@[simp] theorem State.advance_st : (s.advance).st = s.st := rfl
@[simp] theorem State.advance_key : (s.advance).key = s.key := rfl
@[simp] theorem State.advance_wait : (s.advance).wait = s.wait := rfl
@[simp] theorem State.advance_waitReg : (s.advance).waitReg = s.waitReg := rfl
@[simp] theorem State.advance_mem : (s.advance).mem = s.mem := rfl
@[simp] theorem State.advance_fb : (s.advance).fb = s.fb := rfl
@[simp] theorem State.advance_fbChanged : (s.advance).fbChanged = s.fbChanged := rfl
@[simp] theorem State.advance_fault : (s.advance).fault = s.fault := rfl
@[simp] theorem State.advance_drawCount : (s.advance).drawCount = s.drawCount := rfl
@[simp] theorem State.advance_reports : (s.advance).reports = s.reports := rfl

/-! ### tick -/

@[simp] theorem State.tick_v : (s.tick).v = s.v := rfl
@[simp] theorem State.tick_i : (s.tick).i = s.i := rfl
@[simp] theorem State.tick_pc : (s.tick).pc = s.pc := rfl
@[simp] theorem State.tick_sp : (s.tick).sp = s.sp := rfl
@[simp] theorem State.tick_stack : (s.tick).stack = s.stack := rfl
@[simp] theorem State.tick_key : (s.tick).key = s.key := rfl
@[simp] theorem State.tick_wait : (s.tick).wait = s.wait := rfl
@[simp] theorem State.tick_waitReg : (s.tick).waitReg = s.waitReg := rfl
@[simp] theorem State.tick_mem : (s.tick).mem = s.mem := rfl
@[simp] theorem State.tick_fb : (s.tick).fb = s.fb := rfl
@[simp] theorem State.tick_fbChanged : (s.tick).fbChanged = s.fbChanged := rfl
@[simp] theorem State.tick_fault : (s.tick).fault = s.fault := rfl
@[simp] theorem State.tick_drawCount : (s.tick).drawCount = s.drawCount := rfl
@[simp] theorem State.tick_reports : (s.tick).reports = s.reports := rfl

/-! ### report -/

@[simp] theorem State.report_v (a w : Word) : (s.report a w).v = s.v := rfl
@[simp] theorem State.report_i (a w : Word) : (s.report a w).i = s.i := rfl
@[simp] theorem State.report_pc (a w : Word) : (s.report a w).pc = s.pc := rfl
@[simp] theorem State.report_sp (a w : Word) : (s.report a w).sp = s.sp := rfl
@[simp] theorem State.report_stack (a w : Word) : (s.report a w).stack = s.stack := rfl
@[simp] theorem State.report_dt (a w : Word) : (s.report a w).dt = s.dt := rfl
@[simp] theorem State.report_st (a w : Word) : (s.report a w).st = s.st := rfl
@[simp] theorem State.report_key (a w : Word) : (s.report a w).key = s.key := rfl
@[simp] theorem State.report_wait (a w : Word) : (s.report a w).wait = s.wait := rfl
@[simp] theorem State.report_waitReg (a w : Word) : (s.report a w).waitReg = s.waitReg := rfl
@[simp] theorem State.report_mem (a w : Word) : (s.report a w).mem = s.mem := rfl
@[simp] theorem State.report_fb (a w : Word) : (s.report a w).fb = s.fb := rfl
@[simp] theorem State.report_fbChanged (a w : Word) : (s.report a w).fbChanged = s.fbChanged := rfl
@[simp] theorem State.report_fault (a w : Word) : (s.report a w).fault = s.fault := rfl
@[simp] theorem State.report_drawCount (a w : Word) : (s.report a w).drawCount = s.drawCount := rfl

/-! ### clearScreen -/

@[simp] theorem State.clearScreen_v : (s.clearScreen).v = s.v := rfl
@[simp] theorem State.clearScreen_i : (s.clearScreen).i = s.i := rfl
@[simp] theorem State.clearScreen_pc : (s.clearScreen).pc = s.pc := rfl
@[simp] theorem State.clearScreen_sp : (s.clearScreen).sp = s.sp := rfl
@[simp] theorem State.clearScreen_stack : (s.clearScreen).stack = s.stack := rfl
@[simp] theorem State.clearScreen_dt : (s.clearScreen).dt = s.dt := rfl
@[simp] theorem State.clearScreen_st : (s.clearScreen).st = s.st := rfl
@[simp] theorem State.clearScreen_key : (s.clearScreen).key = s.key := rfl
@[simp] theorem State.clearScreen_wait : (s.clearScreen).wait = s.wait := rfl
@[simp] theorem State.clearScreen_waitReg : (s.clearScreen).waitReg = s.waitReg := rfl
@[simp] theorem State.clearScreen_mem : (s.clearScreen).mem = s.mem := rfl
@[simp] theorem State.clearScreen_fault : (s.clearScreen).fault = s.fault := rfl
@[simp] theorem State.clearScreen_drawCount : (s.clearScreen).drawCount = s.drawCount := rfl
@[simp] theorem State.clearScreen_reports : (s.clearScreen).reports = s.reports := rfl

/-! ### drawInto -/

@[simp] theorem State.drawInto_i (x : Reg) (kk : Byte) : (s.drawInto x kk).i = s.i := rfl
@[simp] theorem State.drawInto_pc (x : Reg) (kk : Byte) : (s.drawInto x kk).pc = s.pc := rfl
@[simp] theorem State.drawInto_sp (x : Reg) (kk : Byte) : (s.drawInto x kk).sp = s.sp := rfl
@[simp] theorem State.drawInto_stack (x : Reg) (kk : Byte) : (s.drawInto x kk).stack = s.stack := rfl
@[simp] theorem State.drawInto_dt (x : Reg) (kk : Byte) : (s.drawInto x kk).dt = s.dt := rfl
@[simp] theorem State.drawInto_st (x : Reg) (kk : Byte) : (s.drawInto x kk).st = s.st := rfl
@[simp] theorem State.drawInto_key (x : Reg) (kk : Byte) : (s.drawInto x kk).key = s.key := rfl
@[simp] theorem State.drawInto_wait (x : Reg) (kk : Byte) : (s.drawInto x kk).wait = s.wait := rfl
@[simp] theorem State.drawInto_waitReg (x : Reg) (kk : Byte) : (s.drawInto x kk).waitReg = s.waitReg := rfl
@[simp] theorem State.drawInto_mem (x : Reg) (kk : Byte) : (s.drawInto x kk).mem = s.mem := rfl
@[simp] theorem State.drawInto_fb (x : Reg) (kk : Byte) : (s.drawInto x kk).fb = s.fb := rfl
@[simp] theorem State.drawInto_fbChanged (x : Reg) (kk : Byte) : (s.drawInto x kk).fbChanged = s.fbChanged := rfl
@[simp] theorem State.drawInto_fault (x : Reg) (kk : Byte) : (s.drawInto x kk).fault = s.fault := rfl
@[simp] theorem State.drawInto_reports (x : Reg) (kk : Byte) : (s.drawInto x kk).reports = s.reports := rfl

/-! ### frameAck -/

@[simp] theorem State.frameAck_v : (s.frameAck).v = s.v := rfl
@[simp] theorem State.frameAck_i : (s.frameAck).i = s.i := rfl
@[simp] theorem State.frameAck_pc : (s.frameAck).pc = s.pc := rfl
@[simp] theorem State.frameAck_sp : (s.frameAck).sp = s.sp := rfl
@[simp] theorem State.frameAck_stack : (s.frameAck).stack = s.stack := rfl
@[simp] theorem State.frameAck_dt : (s.frameAck).dt = s.dt := rfl
@[simp] theorem State.frameAck_st : (s.frameAck).st = s.st := rfl
@[simp] theorem State.frameAck_key : (s.frameAck).key = s.key := rfl
@[simp] theorem State.frameAck_wait : (s.frameAck).wait = s.wait := rfl
@[simp] theorem State.frameAck_waitReg : (s.frameAck).waitReg = s.waitReg := rfl
@[simp] theorem State.frameAck_mem : (s.frameAck).mem = s.mem := rfl
@[simp] theorem State.frameAck_fb : (s.frameAck).fb = s.fb := rfl
@[simp] theorem State.frameAck_fault : (s.frameAck).fault = s.fault := rfl
@[simp] theorem State.frameAck_drawCount : (s.frameAck).drawCount = s.drawCount := rfl
@[simp] theorem State.frameAck_reports : (s.frameAck).reports = s.reports := rfl

/-! ### The fields that change -/

@[simp] theorem State.advance_pc : s.advance.pc = s.pc + 2 := rfl
@[simp] theorem State.tick_dt : s.tick.dt = tickByte s.dt := rfl
@[simp] theorem State.tick_st : s.tick.st = tickByte s.st := rfl
@[simp] theorem State.report_reports (a w : Word) : (s.report a w).reports = ⟨a, w⟩ :: s.reports := rfl
@[simp] theorem State.enterFault_fault (c : FaultCause) (a w : Word) : (s.enterFault c a w).fault = some ⟨c, a, w⟩ := rfl
@[simp] theorem State.raise_fault (c : FaultCause) (j : Instr) :
    (s.raise c j).fault = some ⟨c, s.pc - 2, encode j⟩ := rfl
@[simp] theorem State.raiseFetch_fault : s.raiseFetch.fault = some ⟨.addressOutOfRange, s.pc, 0⟩ := rfl
@[simp] theorem State.clearScreen_fb : s.clearScreen.fb = Framebuffer.blank := rfl
@[simp] theorem State.clearScreen_fbChanged : s.clearScreen.fbChanged = true := rfl
@[simp] theorem State.drawInto_drawCount (x : Reg) (kk : Byte) : (s.drawInto x kk).drawCount = s.drawCount + 1 := rfl
@[simp] theorem State.frameAck_fbChanged : s.frameAck.fbChanged = false := rfl
@[simp] theorem State.skipIf_pc (c : Bool) : (s.skipIf c).pc = if c then s.pc + 2 else s.pc := by cases c <;> rfl

/-! ### Reading registers after a write -/

theorem State.reg_setReg (r q : Reg) (b : Byte) : (s.setReg r b).reg q = if q = r then b else s.reg q := by
  unfold State.reg State.setReg
  by_cases h : q = r
  · subst h; simp
  · have hv : r.val ≠ q.val := fun e => h (Fin.ext e.symm)
    simp [h, hv]

@[simp] theorem State.reg_setReg_same (r : Reg) (b : Byte) : (s.setReg r b).reg r = b := by
  simp [State.reg_setReg]

@[simp] theorem State.reg_setReg_ne {r q : Reg} (h : q ≠ r) (b : Byte) : (s.setReg r b).reg q = s.reg q := by
  simp [State.reg_setReg, h]

theorem State.reg_setFlag (q : Reg) (f : Bool) : (s.setFlag f).reg q = if q = vf then flagByte f else s.reg q :=
  s.reg_setReg vf q _

/-- Under the default write order, `VF` ends holding the flag, whatever `x` is (42_alu.md R183). -/
@[simp] theorem State.reg_setResultFlag_vf (x : Reg) (r : Byte) (f : Bool) :
    (s.setResultFlag .flagLast x r f).reg vf = flagByte f := by
  simp [State.setResultFlag, State.reg_setFlag]

theorem State.reg_setResultFlag_ne {q : Reg} (hq : q ≠ vf) (x : Reg) (r : Byte) (f : Bool) :
    (s.setResultFlag .flagLast x r f).reg q = if q = x then r else s.reg q := by
  simp [State.setResultFlag, State.reg_setFlag, State.reg_setReg, hq]

theorem State.reg_drawInto (x q : Reg) (kk : Byte) :
    (s.drawInto x kk).reg q = if q = x then Config.freeByte s.drawCount &&& kk else s.reg q :=
  s.reg_setReg x q _

/-- A register is an entry of the vector; the reading depends on `v` alone. -/
theorem State.reg_eq_of_v {s t : State} (h : s.v = t.v) (r : Reg) : s.reg r = t.reg r := by
  unfold State.reg; rw [h]

@[simp] theorem flagByte_toNat (f : Bool) : (flagByte f).toNat = f.toNat := by cases f <;> rfl

theorem tickByte_toNat (t : Byte) : (tickByte t).toNat = t.toNat - 1 := by
  unfold tickByte
  split
  · next h => subst h; rfl
  · next h =>
    have h0 : t.toNat ≠ 0 := fun e => h (BitVec.eq_of_toNat_eq e)
    have : (t - 1).toNat = (2 ^ 8 - 1 + t.toNat) % 2 ^ 8 := by simp [BitVec.toNat_sub]
    omega

end Sys2Proof.Machine
end

