-- ==== Sys2Proof/Laws/Ops.lean ====
section
/-! SUPPORT. What each shared operation and the step can do, said once: push and pop, the end of a step, the four ways
a step of a running engine goes, and the word that is placed where the next step fetches. -/

namespace Sys2Proof.Machine

/-! ### The call stack -/

/-- `push` writes the entry `SP` names and moves `SP` forward, where `SP` is below 16. -/
theorem State.push_of_lt {s : State} (v : Word) (h : s.sp.toNat < 16) :
    s.push v = some { s with stack := s.stack.set s.sp.toNat v, sp := s.sp + 1 } := by
  simp [State.push, h]

theorem State.push_of_ge {s : State} (v : Word) (h : 16 ≤ s.sp.toNat) : s.push v = none := by
  have h' : ¬s.sp.toNat < 16 := by omega
  simp [State.push, h']

/-- `popPc` moves `SP` back and takes `PC` from the entry it then names. -/
theorem State.popPc_of_le {s : State} (k : Fin 16) (h : k.val + 1 = s.sp.toNat) :
    s.popPc = some { s with sp := s.sp - 1, pc := s.stack[k] } := by
  have hk : (s.sp - 1).toNat = k.val := by
    have e : (s.sp - 1).toNat = (2 ^ 16 - 1 + s.sp.toNat) % 2 ^ 16 := by simp [BitVec.toNat_sub]
    omega
  have hs : s.stackEntry (s.sp - 1) = some s.stack[k] := by
    unfold State.stackEntry
    rw [hk]
    exact Vector.getElem?_eq_getElem k.isLt
  unfold State.popPc
  rw [hs]

theorem State.popPc_of_gt {s : State} (h : 16 < s.sp.toNat) : s.popPc = none := by
  have hk : (s.sp - 1).toNat = s.sp.toNat - 1 := by
    have e : (s.sp - 1).toNat = (2 ^ 16 - 1 + s.sp.toNat) % 2 ^ 16 := by simp [BitVec.toNat_sub]
    omega
  have hs : s.stackEntry (s.sp - 1) = none := by
    simp only [State.stackEntry, hk]
    exact Vector.getElem?_eq_none (by omega)
  unfold State.popPc
  rw [hs]

/-! ### The keypad latch -/

theorem State.keyAt_of_lt (s : State) {k : Byte} (j : Fin 16) (h : j.val = k.toNat) : s.keyAt k = some s.key[j] := by
  simp [State.keyAt, ← h]

theorem State.keyAt_of_ge (s : State) {k : Byte} (h : 15 < k.toNat) : s.keyAt k = none := by
  unfold State.keyAt
  exact Vector.getElem?_eq_none (by omega)

/-! ### Fetch -/

/-- Fetch succeeds exactly up to 0xFFE and reads the two bytes at `PC`, high byte first. -/
theorem State.fetchWord_of_le {s : State} (h : s.pc.toNat ≤ 0xFFE) :
    s.fetchWord = some (wordOfBytes (s.mem.byteAt s.pc.toNat) (s.mem.byteAt (s.pc.toNat + 1))) := by
  have h' : rangeOk s.pc 2 = true := (rangeOk_iff _ _).2 (.inr (by omega))
  simp [State.fetchWord, h']

theorem State.fetchWord_of_gt {s : State} (h : 0xFFE < s.pc.toNat) : s.fetchWord = none := by
  have h' : ¬rangeOk s.pc 2 = true := fun e => by
    rcases (rangeOk_iff _ _).1 e with e | e <;> omega
  simp [State.fetchWord, h']

theorem State.fetchWord_some {s : State} {w : Word} (h : s.fetchWord = some w) : s.pc.toNat ≤ 0xFFE := by
  by_contra hc
  rw [State.fetchWord_of_gt (by omega)] at h
  exact absurd h (by simp)

/-! ### The step -/

/-- The end of a step: the handler's state, ticked unless it recorded a fault. -/
theorem finishStep_next_iff (o : Host.Outcome State Fault Refusal) (t : State) :
    finishStep o = .next t ↔ ∃ u, o = .next u ∧ t = if u.faultValid then u else u.tick := by
  cases o with
  | next u =>
    constructor
    · intro h; exact ⟨u, rfl, (Host.Outcome.next.inj h).symm⟩
    · rintro ⟨_, h, rfl⟩; cases h; rfl
  | fault r => simp [finishStep]
  | refused r => simp [finishStep]

theorem State.faultValid_eq_false {s : State} : s.faultValid = false ↔ s.fault = none := by
  simp [State.faultValid]

/-- A step of a halted or blocked engine changes nothing (R124). -/
theorem step_of_not_running {s : State} (h : ¬s.running) : step s = .next s := by
  unfold step engineStep
  by_cases hf : s.faultValid = true
  · simp [hf]
  · have hf' : s.faultValid = false := by simpa using hf
    have hw : s.wait = true := by
      by_contra hw
      exact h ⟨State.faultValid_eq_false.1 hf', by simpa using hw⟩
    simp [hf', hw]

/-- A step of a running engine, by what it fetches (R123). -/
theorem step_of_running {s : State} (h : s.running) : step s =
    match s.fetchWord with
    | none => .next s.raiseFetch
    | some w =>
      match decodeWord w with
      | none => .next ((s.advance.report s.pc w).tick)
      | some i => finishStep (exec i s.advance) := by
  have hf : s.faultValid = false := State.faultValid_eq_false.2 h.1
  have hw : s.wait = false := h.2
  unfold step engineStep
  rw [hf, hw]
  rfl

/-- All a step can do, when it answers a next state: nothing (halted or blocked), a fetch fault, a report, or the
handler of the decoded instruction. -/
theorem step_next_cases {s t : State} (h : step s = .next t) :
    (¬s.running ∧ t = s) ∨
    (s.running ∧ s.fetchWord = none ∧ t = s.raiseFetch) ∨
    (∃ w, s.running ∧ s.fetchWord = some w ∧ decodeWord w = none ∧ t = (s.advance.report s.pc w).tick) ∨
    (∃ w i u, s.running ∧ s.fetchWord = some w ∧ decodeWord w = some i ∧ exec i s.advance = .next u ∧
      t = if u.faultValid then u else u.tick) := by
  by_cases hr : s.running
  · rw [step_of_running hr] at h
    cases hw : s.fetchWord with
    | none => simp only [hw, Host.Outcome.next.injEq] at h; exact .inr (.inl ⟨hr, rfl, h.symm⟩)
    | some w =>
      cases hi : decodeWord w with
      | none =>
        simp only [hw, hi, Host.Outcome.next.injEq] at h
        exact .inr (.inr (.inl ⟨w, hr, rfl, hi, h.symm⟩))
      | some i =>
        simp only [hw, hi] at h
        obtain ⟨u, hu, ht⟩ := (finishStep_next_iff _ _).1 h
        exact .inr (.inr (.inr ⟨w, i, u, hr, rfl, hi, hu, ht⟩))
  · rw [step_of_not_running hr, Host.Outcome.next.injEq] at h
    exact .inl ⟨hr, h.symm⟩

/-! ### Placing a word -/

/-- The placed word is what the next step fetches. -/
theorem State.fetchWord_placeWord (s : State) (w : Word) : (s.placeWord w).fetchWord = some w := by
  have hp : (s.placeWord w).pc.toNat ≤ 0xFFE := by
    have e : (s.placeWord w).pc = if rangeOk s.pc 2 then s.pc else 0x200 := rfl
    rw [e]
    by_cases h : rangeOk s.pc 2 = true
    · rw [if_pos h]; rcases (rangeOk_iff _ _).1 h with e | e <;> omega
    · rw [if_neg h]; decide
  rw [State.fetchWord_of_le hp]
  have e0 : (s.placeWord w).mem.byteAt (s.placeWord w).pc.toNat = highByte w := by
    simp [State.placeWord, Memory.byteAt_writeBytes, bytesOfWord]
  have e1 : (s.placeWord w).mem.byteAt ((s.placeWord w).pc.toNat + 1) = lowByteOfWord w := by
    simp [State.placeWord, Memory.byteAt_writeBytes, bytesOfWord]
  rw [e0, e1, wordOfBytes_bytes]

theorem State.placeWord_running (s : State) (w : Word) : (s.placeWord w).running := ⟨rfl, rfl⟩

/-- The step after `withFetchWord` runs exactly the placed instruction. -/
theorem step_withFetchWord (s : State) (w : Word) (i : Instr) (h : decodeWord w = some i) :
    step (s.withFetchWord 16 w.toNat) = finishStep (exec i (s.withFetchWord 16 w.toNat).advance) := by
  have e : s.withFetchWord 16 w.toNat = s.placeWord w := by
    have e' : BitVec.ofNat 16 (w.toNat % 2 ^ 16) = w := by
      apply BitVec.eq_of_toNat_eq; rw [BitVec.toNat_ofNat]; omega
    unfold State.withFetchWord; rw [e']
  rw [e, step_of_running (s.placeWord_running w), s.fetchWord_placeWord w]
  simp only [h]

end Sys2Proof.Machine
end

