-- ==== Sys2Proof/Laws/Frames.lean ====
section
/-! SUPPORT. The small lemmas of the terms of Safety.lean: which words a row decodes, the frame of each update, and fault
entry. -/

namespace Sys2Proof.Machine

/-! ### Rows of the encoding table -/

/-- Rows at mask 0xF000: `op` alone decides. -/
theorem decodesAs_F000 (op : Nibble) {key : Word} {build : Word → Instr} (hk : key = wordOfNibbles op 0 0 0)
    (h : ∀ x y n, decodeByNibbles (wordOfNibbles op x y n) = some (build (wordOfNibbles op x y n))) :
    DecodesAs 0xF000 key build := by
  intro w hw
  rw [decodeWord_eq]
  rw [← wordOfNibbles_fields w, and_F000, hk, wordOfNibbles_inj] at hw
  rw [← wordOfNibbles_fields w, hw.1]
  exact h _ _ _

/-- Rows at mask 0xF00F: `op` and `n` decide. -/
theorem decodesAs_F00F (op n : Nibble) {key : Word} {build : Word → Instr} (hk : key = wordOfNibbles op 0 0 n)
    (h : ∀ x y, decodeByNibbles (wordOfNibbles op x y n) = some (build (wordOfNibbles op x y n))) :
    DecodesAs 0xF00F key build := by
  intro w hw
  rw [decodeWord_eq]
  rw [← wordOfNibbles_fields w, and_F00F, hk, wordOfNibbles_inj] at hw
  rw [← wordOfNibbles_fields w, hw.1, hw.2.2.2]
  exact h _ _

/-- Rows at mask 0xF0FF: `op`, `y` and `n` decide. -/
theorem decodesAs_F0FF (op y n : Nibble) {key : Word} {build : Word → Instr} (hk : key = wordOfNibbles op 0 y n)
    (h : ∀ x, decodeByNibbles (wordOfNibbles op x y n) = some (build (wordOfNibbles op x y n))) :
    DecodesAs 0xF0FF key build := by
  intro w hw
  rw [decodeWord_eq]
  rw [← wordOfNibbles_fields w, and_F0FF, hk, wordOfNibbles_inj] at hw
  rw [← wordOfNibbles_fields w, hw.1, hw.2.2.1, hw.2.2.2]
  exact h _

/-! ### Frames -/

theorem Frame.refl (c : MayChange) (s : State) : Frame c s s := by simp [Frame]

theorem frame_setReg (s : State) (x : Reg) (b : Byte) : Frame { regs := [x] } s (s.setReg x b) := by
  simp +contextual [Frame]

theorem frame_setFlag (s : State) (f : Bool) : Frame { regs := [vf] } s (s.setFlag f) := frame_setReg s vf _

theorem frame_setResultFlag (s : State) (o : VfWriteOrder) (x : Reg) (r : Byte) (f : Bool) :
    Frame { regs := [x, vf] } s (s.setResultFlag o x r f) := by
  cases o <;> simp +contextual [Frame, State.setResultFlag, State.reg_setFlag]

theorem frame_drawInto (s : State) (x : Reg) (kk : Byte) :
    Frame { regs := [x], draws := true } s (s.drawInto x kk) := by
  simp +contextual [Frame, State.reg_drawInto]

theorem frame_pc (s : State) (p : Word) : Frame { pc := true } s { s with pc := p } := by simp [Frame, State.reg]

theorem frame_skipIf (s : State) (c : Bool) : Frame { pc := true } s (s.skipIf c) := by simp [Frame, State.reg]

theorem frame_i (s : State) (a : Word) : Frame { i := true } s { s with i := a } := by simp [Frame, State.reg]

theorem frame_dt (s : State) (b : Byte) : Frame { dt := true } s { s with dt := b } := by simp [Frame, State.reg]

theorem frame_st (s : State) (b : Byte) : Frame { st := true } s { s with st := b } := by simp [Frame, State.reg]

theorem frame_wait (s : State) (b : Bool) (r : Reg) : Frame { wait := true } s { s with wait := b, waitReg := r } := by
  simp [Frame, State.reg]

theorem frame_clearScreen (s : State) : Frame { display := true } s s.clearScreen := by simp [Frame, State.reg]

theorem mem_addresses {base n a : Nat} : a ∈ addresses base n ↔ base ≤ a ∧ a < base + n := by
  simp only [addresses, List.mem_map, List.mem_range]
  constructor
  · rintro ⟨k, hk, rfl⟩; omega
  · rintro ⟨h, h'⟩; exact ⟨a - base, by omega, by omega⟩

theorem frame_writeBytes (s : State) (base : Nat) (bs : List Byte) :
    Frame { mem := addresses base bs.length } s { s with mem := s.mem.writeBytes base bs } := by
  simp +contextual [Frame, State.reg, mem_addresses, Memory.byteAt_writeBytes]

/-- A handler that raises enters the fault of its code. -/
theorem entersFault_of_raise {i : Instr} {s : State} {c : FaultCause} (h : exec i s = .next (s.raise c i)) :
    EntersFault i s c.code.toNat :=
  ⟨_, h, rfl, rfl, rfl, rfl, by simp [Frame, State.reg]⟩

/-! ### Fetch -/

theorem fetchesWord_iff (s : State) (w : Word) : FetchesWord s w ↔ s.running ∧ s.fetchWord = some w := by
  unfold FetchesWord
  constructor
  · rintro ⟨hr, hp, hw⟩
    refine ⟨hr, ?_⟩
    rw [State.fetchWord_of_le hp, Option.some.injEq]
    apply BitVec.eq_of_toNat_eq
    rw [toNat_wordOfBytes, hw]
  · rintro ⟨hr, hw⟩
    have hp := State.fetchWord_some hw
    rw [State.fetchWord_of_le hp, Option.some.injEq] at hw
    exact ⟨hr, hp, by rw [← hw, toNat_wordOfBytes]⟩

end Sys2Proof.Machine
end

