-- ==== Sys2Proof/Laws/Exec.lean ====
section
/-! SUPPORT. What the handlers can do, said once: the outcome of each handler with a check, by the check; and for every
handler, that it either leaves `FAULT` alone or is one fault entry. -/

namespace Sys2Proof.Machine

/-! ### The handlers that check -/

theorem exec_ret_of_le {s : State} (x : Nibble) (k : Fin 16) (h : s.sp.toNat = k.val + 1) :
    exec (.ret x) s = .next { s with sp := s.sp - 1, pc := s.stack[k] } := by
  have h0 : s.sp ≠ 0 := fun e => by rw [e] at h; simp at h
  simp only [exec, execRet, h0, if_false, State.popPc_of_le k h.symm]

theorem exec_ret_of_zero {s : State} (x : Nibble) (h : s.sp.toNat = 0) :
    exec (.ret x) s = .next (s.raise .stackUnderflow (.ret x)) := by
  have h0 : s.sp = 0 := BitVec.eq_of_toNat_eq h
  simp [exec, execRet, h0]

theorem exec_ret_of_gt {s : State} (x : Nibble) (h : 16 < s.sp.toNat) :
    exec (.ret x) s = .fault (.illegalStackPointer s.sp) := by
  have h0 : s.sp ≠ 0 := fun e => by rw [e] at h; simp at h
  simp only [exec, execRet, h0, if_false, State.popPc_of_gt h]

theorem exec_call_of_lt {s : State} (nnn : BitVec 12) (h : s.sp.toNat < 16) :
    exec (.call nnn) s =
      .next { s with stack := s.stack.set s.sp.toNat s.pc, sp := s.sp + 1, pc := addrOfNnn nnn } := by
  have h0 : s.sp ≠ 16 := fun e => by rw [e] at h; simp at h
  simp only [exec, execCall, h0, if_false, State.push_of_lt _ h]

theorem exec_call_of_full {s : State} (nnn : BitVec 12) (h : s.sp.toNat = 16) :
    exec (.call nnn) s = .next (s.raise .stackOverflow (.call nnn)) := by
  have h0 : s.sp = 16 := BitVec.eq_of_toNat_eq h
  simp [exec, execCall, h0]

theorem exec_call_of_gt {s : State} (nnn : BitVec 12) (h : 16 < s.sp.toNat) :
    exec (.call nnn) s = .fault (.illegalStackPointer s.sp) := by
  have h0 : s.sp ≠ 16 := fun e => by rw [e] at h; simp at h
  simp only [exec, execCall, h0, if_false, State.push_of_ge s.pc (show 16 ≤ s.sp.toNat by omega)]

theorem exec_skp_of_lt {s : State} (x : Reg) (k : Fin 16) (h : (s.reg x).toNat = k.val) :
    exec (.skp x) s = .next (s.skipIf s.key[k]) := by
  simp only [exec, execSkp, s.keyAt_of_lt k h.symm]

theorem exec_skp_of_gt {s : State} (x : Reg) (h : 15 < (s.reg x).toNat) :
    exec (.skp x) s = .next (s.raise .keyIndexOutOfRange (.skp x)) := by
  simp only [exec, execSkp, s.keyAt_of_ge h]

theorem exec_sknp_of_lt {s : State} (x : Reg) (k : Fin 16) (h : (s.reg x).toNat = k.val) :
    exec (.sknp x) s = .next (s.skipIf (!s.key[k])) := by
  simp only [exec, execSknp, s.keyAt_of_lt k h.symm]

theorem exec_sknp_of_gt {s : State} (x : Reg) (h : 15 < (s.reg x).toNat) :
    exec (.sknp x) s = .next (s.raise .keyIndexOutOfRange (.sknp x)) := by
  simp only [exec, execSknp, s.keyAt_of_ge h]

/-! ### Operands -/

theorem toNat_add_two (p : Word) : (p + 2).toNat = (p.toNat + 2) % 65536 := by simp [BitVec.toNat_add]

theorem sp_sub_one {a : Word} {k : Nat} (h : a.toNat = k + 1) : (a - 1).toNat = k := by
  have e : (a - 1).toNat = (2 ^ 16 - 1 + a.toNat) % 2 ^ 16 := by simp [BitVec.toNat_sub]
  omega

theorem sp_add_one {a : Word} (h : a.toNat < 16) : (a + 1).toNat = a.toNat + 1 := by
  have e : (a + 1).toNat = (a.toNat + 1) % 2 ^ 16 := by simp [BitVec.toNat_add]
  omega

@[simp] theorem State.length_regsUpTo (s : State) (x : Reg) : (s.regsUpTo x).length = x.val + 1 := by
  simp [State.regsUpTo]

theorem State.getD_regsUpTo (s : State) {x k : Reg} (h : k.val ≤ x.val) : (s.regsUpTo x).getD k.val 0 = s.reg k := by
  have : k.val < x.val + 1 := by omega
  simp [State.regsUpTo, List.getD_eq_getElem?_getD, this, State.reg]

theorem State.reg_loadedRegs (s : State) (x k : Reg) :
    State.reg { s with v := s.loadedRegs x } k = if k ≤ x then s.mem.byteAt (s.i.toNat + k.val) else s.reg k := by
  simp [State.reg, State.loadedRegs]

/-! ### All a handler can do -/

/-- The instructions that can raise a fault (60_exceptions.md R261). -/
def CanFault (i : Instr) : Prop :=
  (∃ nnn, i = .call nnn) ∨ (∃ x y n, i = .drw x y n) ∨
    ∃ x, i = .ret x ∨ i = .ldB x ∨ i = .storeRegs x ∨ i = .loadRegs x ∨ i = .skp x ∨ i = .sknp x

/-- The shape of the next state of a handler that does not fault. -/
def Effect (i : Instr) (s t : State) : Prop :=
  match i with
  | .cls _ => t = s.clearScreen
  | .ret _ => ∃ k : Fin 16, s.sp.toNat = k.val + 1 ∧ t = { s with sp := s.sp - 1, pc := s.stack[k] }
  | .sys _ => t = s
  | .jp nnn => t = { s with pc := addrOfNnn nnn }
  | .call nnn => ∃ k : Fin 16, s.sp.toNat = k.val ∧
      t = { s with stack := s.stack.set k s.pc, sp := s.sp + 1, pc := addrOfNnn nnn }
  | .seImm _ _ => ∃ c, t = s.skipIf c
  | .sneImm _ _ => ∃ c, t = s.skipIf c
  | .seReg _ _ _ => ∃ c, t = s.skipIf c
  | .ldImm x kk => t = s.setReg x kk
  | .addImm x kk => t = s.setReg x (s.reg x + kk)
  | .ldReg x y _ => t = s.setReg x (s.reg y)
  | .orReg x y => t = s.setReg x (s.reg x ||| s.reg y)
  | .andReg x y => t = s.setReg x (s.reg x &&& s.reg y)
  | .xorReg x y => t = s.setReg x (s.reg x ^^^ s.reg y)
  | .addReg x _ => ∃ o r f, t = s.setResultFlag o x r f
  | .subReg x _ => ∃ o r f, t = s.setResultFlag o x r f
  | .shr x _ => ∃ o r f, t = s.setResultFlag o x r f
  | .subn x _ => ∃ o r f, t = s.setResultFlag o x r f
  | .shl x _ => ∃ o r f, t = s.setResultFlag o x r f
  | .sneReg _ _ _ => ∃ c, t = s.skipIf c
  | .ldI nnn => t = { s with i := addrOfNnn nnn }
  | .jpV0 nnn => t = { s with pc := addrOfNnn nnn + wordOfByte (s.reg 0) }
  | .rnd x kk => t = s.drawInto x kk
  | .drw _ _ _ => ∃ fb f, t = { s with fb := fb, fbChanged := true }.setFlag f
  | .skp _ => ∃ c, t = s.skipIf c
  | .sknp _ => ∃ c, t = s.skipIf c
  | .ldVxDt x _ => t = s.setReg x s.dt
  | .ldKey x _ => t = { s with wait := true, waitReg := x }
  | .ldDt x => t = { s with dt := s.reg x }
  | .ldSt x => t = { s with st := s.reg x }
  | .addI x => t = { s with i := s.i + wordOfByte (s.reg x) }
  | .ldF x => t = { s with i := glyphAddr (s.reg x) }
  | .ldB x => s.i.toNat + 3 ≤ 4096 ∧ t = { s with mem := s.mem.writeBytes s.i.toNat (bcdDigits (s.reg x)) }
  | .storeRegs x => s.i.toNat + x.val + 1 ≤ 4096 ∧
      t = { s with mem := s.mem.writeBytes s.i.toNat (s.regsUpTo x) }
  | .loadRegs x => s.i.toNat + x.val + 1 ≤ 4096 ∧ t = { s with v := s.loadedRegs x }

/-- All a handler can do when it answers a next state: one fault entry, or its effect. -/
theorem exec_next_cases {i : Instr} {s t : State} (h : exec i s = .next t) :
    (∃ c, t = s.raise c i ∧ CanFault i) ∨ Effect i s t := by
  cases i with
  | ret x =>
    rcases Nat.lt_or_ge 16 s.sp.toNat with hs | hs
    · rw [exec_ret_of_gt x hs] at h; cases h
    · rcases Nat.eq_zero_or_pos s.sp.toNat with h0 | h0
      · rw [exec_ret_of_zero x h0] at h; cases h; exact .inl ⟨_, rfl, by simp [CanFault]⟩
      · rw [exec_ret_of_le x ⟨s.sp.toNat - 1, by omega⟩ (by simp only; omega)] at h
        cases h; exact .inr ⟨_, by simp only; omega, rfl⟩
  | call nnn =>
    rcases Nat.lt_trichotomy s.sp.toNat 16 with hs | hs | hs
    · rw [exec_call_of_lt nnn hs] at h; cases h; exact .inr ⟨⟨s.sp.toNat, hs⟩, rfl, rfl⟩
    · rw [exec_call_of_full nnn hs] at h; cases h; exact .inl ⟨_, rfl, by simp [CanFault]⟩
    · rw [exec_call_of_gt nnn hs] at h; cases h
  | ldB x =>
    simp only [exec, execLdB] at h
    split at h <;> cases h
    · next hr => exact .inr ⟨by rcases (rangeOk_iff _ _).1 hr with e | e <;> omega, rfl⟩
    · exact .inl ⟨_, rfl, by simp [CanFault]⟩
  | storeRegs x =>
    simp only [exec, execStoreRegs] at h
    split at h <;> cases h
    · next hr => exact .inr ⟨by rcases (rangeOk_iff _ _).1 hr with e | e <;> omega, rfl⟩
    · exact .inl ⟨_, rfl, by simp [CanFault]⟩
  | loadRegs x =>
    simp only [exec, execLoadRegs] at h
    split at h <;> cases h
    · next hr => exact .inr ⟨by rcases (rangeOk_iff _ _).1 hr with e | e <;> omega, rfl⟩
    · exact .inl ⟨_, rfl, by simp [CanFault]⟩
  | drw x y n =>
    simp only [exec, execDrw] at h
    split at h
    · split at h <;> cases h
      · exact .inr ⟨_, _, rfl⟩
      · exact .inl ⟨_, rfl, by simp [CanFault]⟩
    · cases h; exact .inl ⟨_, rfl, by simp [CanFault]⟩
  | skp x =>
    simp only [exec, execSkp] at h
    split at h <;> cases h
    · exact .inr ⟨_, rfl⟩
    · exact .inl ⟨_, rfl, by simp [CanFault]⟩
  | sknp x =>
    simp only [exec, execSknp] at h
    split at h <;> cases h
    · exact .inr ⟨_, rfl⟩
    · exact .inl ⟨_, rfl, by simp [CanFault]⟩
  | _ => cases h; first | exact .inr rfl | exact .inr ⟨_, rfl⟩ | exact .inr ⟨_, _, _, rfl⟩

/-- A handler leaves `FAULT` as it was, or it is one fault entry and nothing else (60_exceptions.md R262). -/
theorem exec_fault_cases {i : Instr} {s t : State} (h : exec i s = .next t) :
    t.fault = s.fault ∨ ∃ c, t = s.raise c i := by
  rcases exec_next_cases h with ⟨c, rfl, -⟩ | h'
  · exact .inr ⟨c, rfl⟩
  · refine .inl ?_
    cases i <;> simp only [Effect] at h'
    all_goals first
      | (subst h'; rfl)
      | (obtain ⟨-, rfl⟩ := h'; rfl)
      | (obtain ⟨_, -, rfl⟩ := h'; rfl)
      | (obtain ⟨_, _, rfl⟩ := h'; rfl)
      | (obtain ⟨_, rfl⟩ := h'; simp; done)
      | (obtain ⟨_, _, _, rfl⟩ := h'; simp; done)

end Sys2Proof.Machine
end

