-- ==== Sys2Proof/Laws/Display.lean ====
section
/-! SUPPORT. The draw: which coordinates a sprite names, where they land, that no two land on one pixel, and the
outcome of the handler by its two checks (spec/44_display.md R225, R226). -/

namespace Sys2Proof.Machine

/-- Two named coordinates of one sprite differ, and by less than the grid's size. -/
def CoordsDiffer (p q : Int × Int) : Prop :=
  p ≠ q ∧ -8 < p.1 - q.1 ∧ p.1 - q.1 < 8 ∧ -16 < p.2 - q.2 ∧ p.2 - q.2 < 16

theorem rowPoints_pairwise (vx y : Nat) (b : Byte) : (rowPoints vx y b).Pairwise CoordsDiffer := by
  unfold rowPoints
  rw [List.pairwise_filterMap]
  refine List.pairwise_lt_range.imp_of_mem ?_
  intro c c' hc hc' hlt p hp q hq
  rw [List.mem_range] at hc hc'
  split at hp <;> cases hp
  split at hq <;> cases hq
  refine ⟨fun e => ?_, ?_, ?_, ?_, ?_⟩
  · have := congrArg Prod.fst e; simp only at this; omega
  all_goals simp only; omega

theorem spritePoints_pairwise (vx : Nat) (rows : List Byte) (vy : Nat) (h : rows.length ≤ 15) :
    (spritePoints vx vy rows).Pairwise CoordsDiffer := by
  induction rows generalizing vy with
  | nil => exact List.Pairwise.nil
  | cons b bs ih =>
    rw [spritePoints, List.pairwise_append]
    simp only [List.length_cons] at h
    refine ⟨rowPoints_pairwise _ _ _, ih _ (by omega), ?_⟩
    intro p hp q hq
    obtain ⟨c, hc, -, rfl⟩ := (mem_rowPoints _ _ _ _).1 hp
    obtain ⟨r, c', hr, hc', -, rfl⟩ := (mem_spritePoints _ _ _ _).1 hq
    refine ⟨fun e => ?_, ?_, ?_, ?_, ?_⟩
    · have := congrArg Prod.snd e; simp only at this; omega
    all_goals simp only; omega

/-- The sprite's named coordinates are its set bits. -/
theorem mem_drawTargets (s : State) (x y : Reg) (n : Nibble) (p : Int × Int) :
    p ∈ s.drawTargets x y n ↔ ∃ r c, SpriteBit s n r c ∧
      p = ((((s.reg x).toNat + c : Nat) : Int), (((s.reg y).toNat + r : Nat) : Int)) := by
  unfold State.drawTargets State.spriteRows SpriteBit
  rw [mem_spritePoints]
  constructor
  · rintro ⟨r, c, hr, hc, hb, hp⟩
    rw [Memory.getElem_readBytes] at hb
    exact ⟨r, c, ⟨by simpa using hr, hc, hb⟩, hp⟩
  · rintro ⟨r, c, ⟨hr, hc, hb⟩, hp⟩
    exact ⟨r, c, by simpa using hr, hc, by rw [Memory.getElem_readBytes]; exact hb, hp⟩

/-- The first check. -/
theorem spriteReadable_iff (s : State) (n : Nibble) : SpriteReadable s n ↔ rangeOk s.i n.val = true := by
  rw [rangeOk_iff, SpriteReadable]; omega

/-- The second check. -/
theorem spriteOnGrid_iff (s : State) (x y : Reg) (n : Nibble) :
    SpriteOnGrid s x y n ↔ ∀ p ∈ s.drawTargets x y n, (gridCoord p.1 p.2).isSome = true := by
  unfold SpriteOnGrid
  constructor
  · intro h p hp
    obtain ⟨r, c, hb, rfl⟩ := (mem_drawTargets _ _ _ _ _).1 hp
    rw [gridCoord_isSome_iff]
    have := h r c hb
    simp only; omega
  · intro h r c hb
    have := h _ ((mem_drawTargets _ _ _ _ _).2 ⟨r, c, hb, rfl⟩)
    rw [gridCoord_isSome_iff] at this
    simp only at this; omega

/-- Where a coordinate that reaches the grid lands. -/
theorem gridCoord_eq_some_iff {x y : Int} (h : (gridCoord x y).isSome = true) (px : Fin 64) (py : Fin 32) :
    gridCoord x y = some (px, py) ↔ x % 64 = px.val ∧ y % 32 = py.val := by
  constructor
  · intro e; have := gridCoord_some e; omega
  · rintro ⟨hx, hy⟩
    obtain ⟨⟨qx, qy⟩, hq⟩ := Option.isSome_iff_exists.1 h
    have := gridCoord_some hq
    rw [hq, Option.some.injEq, Prod.mk.injEq]
    exact ⟨Fin.ext (by omega), Fin.ext (by omega)⟩

/-- The pixels a draw on the grid toggles. -/
theorem touches_iff {s : State} {x y : Reg} {n : Nibble} (h : SpriteOnGrid s x y n) (px : Fin 64) (py : Fin 32) :
    Touches s x y n px py ↔ ∃ p ∈ s.drawTargets x y n, gridCoord p.1 p.2 = some (px, py) := by
  rw [spriteOnGrid_iff] at h
  unfold Touches
  constructor
  · rintro ⟨r, c, hb, hx, hy⟩
    have hm := (mem_drawTargets s x y n _).2 ⟨r, c, hb, rfl⟩
    exact ⟨_, hm, (gridCoord_eq_some_iff (h _ hm) px py).2 (by simp only; omega)⟩
  · rintro ⟨p, hp, e⟩
    have := (gridCoord_eq_some_iff (h _ hp) px py).1 e
    obtain ⟨r, c, hb, rfl⟩ := (mem_drawTargets _ _ _ _ _).1 hp
    exact ⟨r, c, hb, by simp only at this; omega, by simp only at this; omega⟩

/-- No two named coordinates of a sprite on the grid land on one pixel (R226). -/
theorem drawTargets_pairwise {s : State} {x y : Reg} {n : Nibble} (h : SpriteOnGrid s x y n) :
    (s.drawTargets x y n).Pairwise (fun p q => gridCoord p.1 p.2 ≠ gridCoord q.1 q.2) := by
  rw [spriteOnGrid_iff] at h
  refine (spritePoints_pairwise _ _ _ (by simp [State.spriteRows]; omega)).imp_of_mem ?_
  intro p q hp hq hd e
  obtain ⟨⟨a, b⟩, he⟩ := Option.isSome_iff_exists.1 (h _ hp)
  have h1 := gridCoord_some he
  have h2 := gridCoord_some (e ▸ he)
  obtain ⟨hne, hd⟩ := hd
  exact hne (Prod.ext (by omega) (by omega))

/-- The handler of a draw whose checks pass. -/
theorem exec_drw_of_ok {s : State} {x y : Reg} {n : Nibble} (h1 : SpriteReadable s n) (h2 : SpriteOnGrid s x y n) :
    ∃ fb coll, s.fb.drawPoints false (s.drawTargets x y n) = some (fb, coll) ∧
      exec (.drw x y n) s = .next ({ s with fb := fb, fbChanged := true }.setFlag coll) := by
  rw [spriteReadable_iff] at h1
  rw [spriteOnGrid_iff, ← Framebuffer.drawPoints_isSome_iff _ s.fb false] at h2
  obtain ⟨⟨fb, coll⟩, h⟩ := Option.isSome_iff_exists.1 h2
  exact ⟨fb, coll, h, by simp only [exec, execDrw, h1, if_true, h]⟩

theorem exec_drw_of_unreadable {s : State} (x y : Reg) {n : Nibble} (h : ¬SpriteReadable s n) :
    exec (.drw x y n) s = .next (s.raise .addressOutOfRange (.drw x y n)) := by
  rw [spriteReadable_iff] at h
  simp only [exec, execDrw, h]
  rfl

theorem exec_drw_of_off {s : State} {x y : Reg} {n : Nibble} (h1 : SpriteReadable s n) (h2 : ¬SpriteOnGrid s x y n) :
    exec (.drw x y n) s = .next (s.raise .fbCoordOutOfRange (.drw x y n)) := by
  rw [spriteReadable_iff] at h1
  rw [spriteOnGrid_iff, ← Framebuffer.drawPoints_isSome_iff _ s.fb false] at h2
  simp only [exec, execDrw, h1, if_true]
  cases h : s.fb.drawPoints false (s.drawTargets x y n) with
  | none => rfl
  | some r => rw [h] at h2; exact absurd rfl h2

end Sys2Proof.Machine
end

