-- ==== Sys2Proof/Laws/PerInstr.lean ====
section
/-! SUPPORT. Statements made of every instruction, one lemma per constructor. `EncodeMatchesRow`: the word of an
instruction matches a row of the key table under that row's tier mask, and the row rebuilds the instruction from it. -/

namespace Sys2Proof.Laws.EncodeMatchesRow

/-- The instruction's word matches its own row (spec/30_encoding.md R95), whose fields give the instruction back. -/
def Statement (i : Instr) : Prop := ∃ r ∈ keyTable, encode i &&& r.tierMask = r.key ∧ r.build (encode i) = i

theorem mem_flow {r : KeyRow} (h : r ∈ flowRows) : r ∈ keyTable :=
  List.mem_append_left _ (List.mem_append_left _ (List.mem_append_left _ (List.mem_append_left _
    (List.mem_append_left _ h))))

theorem mem_sys : sysRow ∈ keyTable :=
  List.mem_append_left _ (List.mem_append_left _ (List.mem_append_left _ (List.mem_append_left _
    (List.mem_append_right _ (List.Mem.head _)))))

theorem mem_skip {r : KeyRow} (h : r ∈ skipRows) : r ∈ keyTable :=
  List.mem_append_left _ (List.mem_append_left _ (List.mem_append_left _ (List.mem_append_right _ h)))

theorem mem_alu {r : KeyRow} (h : r ∈ aluRows) : r ∈ keyTable :=
  List.mem_append_left _ (List.mem_append_left _ (List.mem_append_right _ h))

theorem mem_memory {r : KeyRow} (h : r ∈ memoryRows) : r ∈ keyTable :=
  List.mem_append_left _ (List.mem_append_right _ h)

theorem mem_device {r : KeyRow} (h : r ∈ deviceRows) : r ∈ keyTable := List.mem_append_right _ h

theorem encA_and_F000 (op : Nibble) (nnn : BitVec 12) : encA op nnn &&& 0xF000 = wordOfNibbles op 0 0 0 := by
  rw [encA_nibbles, and_F000]

theorem encRI_and_F000 (op x : Nibble) (kk : Byte) : encRI op x kk &&& 0xF000 = wordOfNibbles op 0 0 0 := by
  rw [encRI_nibbles, and_F000]

theorem encRI_and_F0FF (op x : Nibble) (kk : Byte) : encRI op x kk &&& 0xF0FF = encRI op 0 kk := by
  rw [encRI_nibbles, and_F0FF, encRI_nibbles]

theorem cls (x : Reg) : Statement (.cls x) :=
  ⟨_, mem_flow (.head _), (encRI_and_F0FF _ _ _).trans (by decide), by simp only [encode, fieldX_encRI]⟩

theorem ret (x : Reg) : Statement (.ret x) :=
  ⟨_, mem_flow (.tail _ (.head _)), (encRI_and_F0FF _ _ _).trans (by decide), by simp only [encode, fieldX_encRI]⟩

theorem sys (nnn : BitVec 12) : Statement (.sys nnn) :=
  ⟨_, mem_sys, (encA_and_F000 _ _).trans (by decide), by simp only [sysRow, encode, fieldNnn_encA]⟩

theorem jp (nnn : BitVec 12) : Statement (.jp nnn) :=
  ⟨_, mem_flow (.tail _ (.tail _ (.head _))), (encA_and_F000 _ _).trans (by decide), by simp only [encode, fieldNnn_encA]⟩

theorem call (nnn : BitVec 12) : Statement (.call nnn) :=
  ⟨_, mem_flow (.tail _ (.tail _ (.tail _ (.head _)))), (encA_and_F000 _ _).trans (by decide), by simp only [encode, fieldNnn_encA]⟩

theorem seImm (x : Reg) (kk : Byte) : Statement (.seImm x kk) :=
  ⟨_, mem_skip (.head _), (encRI_and_F000 _ _ _).trans (by decide), by simp only [encode, fieldX_encRI, fieldKk_encRI]⟩

theorem sneImm (x : Reg) (kk : Byte) : Statement (.sneImm x kk) :=
  ⟨_, mem_skip (.tail _ (.head _)), (encRI_and_F000 _ _ _).trans (by decide), by simp only [encode, fieldX_encRI, fieldKk_encRI]⟩

theorem seReg (x y : Reg) (n : Nibble) : Statement (.seReg x y n) :=
  ⟨_, mem_skip (.tail _ (.tail _ (.head _))), (and_F000 _ _ _ _).trans (by decide), by simp only [encode, fieldX_encRR, fieldY_encRR, fieldN_encRR]⟩

theorem ldImm (x : Reg) (kk : Byte) : Statement (.ldImm x kk) :=
  ⟨_, mem_alu (.head _), (encRI_and_F000 _ _ _).trans (by decide), by simp only [encode, fieldX_encRI, fieldKk_encRI]⟩

theorem addImm (x : Reg) (kk : Byte) : Statement (.addImm x kk) :=
  ⟨_, mem_alu (.tail _ (.head _)), (encRI_and_F000 _ _ _).trans (by decide), by simp only [encode, fieldX_encRI, fieldKk_encRI]⟩

theorem ldReg (x y : Reg) (n : Nibble) : Statement (.ldReg x y n) :=
  ⟨_, mem_alu (.tail _ (.tail _ (.head _))), (and_F000 _ _ _ _).trans (by decide), by simp only [encode, fieldX_encRR, fieldY_encRR, fieldN_encRR]⟩

theorem orReg (x y : Reg) : Statement (.orReg x y) :=
  ⟨_, mem_alu (.tail _ (.tail _ (.tail _ (.head _)))), (and_F00F _ _ _ _).trans (by decide), by simp only [encode, fieldX_encRR, fieldY_encRR]⟩

theorem andReg (x y : Reg) : Statement (.andReg x y) :=
  ⟨_, mem_alu (.tail _ (.tail _ (.tail _ (.tail _ (.head _))))), (and_F00F _ _ _ _).trans (by decide), by simp only [encode, fieldX_encRR, fieldY_encRR]⟩

theorem xorReg (x y : Reg) : Statement (.xorReg x y) :=
  ⟨_, mem_alu (.tail _ (.tail _ (.tail _ (.tail _ (.tail _ (.head _)))))), (and_F00F _ _ _ _).trans (by decide), by simp only [encode, fieldX_encRR, fieldY_encRR]⟩

theorem addReg (x y : Reg) : Statement (.addReg x y) :=
  ⟨_, mem_alu (.tail _ (.tail _ (.tail _ (.tail _ (.tail _ (.tail _ (.head _))))))), (and_F00F _ _ _ _).trans (by decide), by simp only [encode, fieldX_encRR, fieldY_encRR]⟩

theorem subReg (x y : Reg) : Statement (.subReg x y) :=
  ⟨_, mem_alu (.tail _ (.tail _ (.tail _ (.tail _ (.tail _ (.tail _ (.tail _ (.head _)))))))), (and_F00F _ _ _ _).trans (by decide), by simp only [encode, fieldX_encRR, fieldY_encRR]⟩

theorem shr (x y : Reg) : Statement (.shr x y) :=
  ⟨_, mem_alu (.tail _ (.tail _ (.tail _ (.tail _ (.tail _ (.tail _ (.tail _ (.tail _ (.head _))))))))), (and_F00F _ _ _ _).trans (by decide), by simp only [encode, fieldX_encRR, fieldY_encRR]⟩

theorem subn (x y : Reg) : Statement (.subn x y) :=
  ⟨_, mem_alu (.tail _ (.tail _ (.tail _ (.tail _ (.tail _ (.tail _ (.tail _ (.tail _ (.tail _ (.head _)))))))))), (and_F00F _ _ _ _).trans (by decide), by simp only [encode, fieldX_encRR, fieldY_encRR]⟩

theorem shl (x y : Reg) : Statement (.shl x y) :=
  ⟨_, mem_alu (.tail _ (.tail _ (.tail _ (.tail _ (.tail _ (.tail _ (.tail _ (.tail _ (.tail _ (.tail _ (.head _))))))))))), (and_F00F _ _ _ _).trans (by decide), by simp only [encode, fieldX_encRR, fieldY_encRR]⟩

theorem sneReg (x y : Reg) (n : Nibble) : Statement (.sneReg x y n) :=
  ⟨_, mem_skip (.tail _ (.tail _ (.tail _ (.head _)))), (and_F000 _ _ _ _).trans (by decide), by simp only [encode, fieldX_encRR, fieldY_encRR, fieldN_encRR]⟩

theorem ldI (nnn : BitVec 12) : Statement (.ldI nnn) :=
  ⟨_, mem_memory (.head _), (encA_and_F000 _ _).trans (by decide), by simp only [encode, fieldNnn_encA]⟩

theorem jpV0 (nnn : BitVec 12) : Statement (.jpV0 nnn) :=
  ⟨_, mem_flow (.tail _ (.tail _ (.tail _ (.tail _ (.head _))))), (encA_and_F000 _ _).trans (by decide), by simp only [encode, fieldNnn_encA]⟩

theorem rnd (x : Reg) (kk : Byte) : Statement (.rnd x kk) :=
  ⟨_, mem_alu (.tail _ (.tail _ (.tail _ (.tail _ (.tail _ (.tail _ (.tail _ (.tail _ (.tail _ (.tail _ (.tail _ (.head _)))))))))))), (encRI_and_F000 _ _ _).trans (by decide), by simp only [encode, fieldX_encRI, fieldKk_encRI]⟩

theorem drw (x y : Reg) (n : Nibble) : Statement (.drw x y n) :=
  ⟨_, mem_memory (.tail _ (.head _)), (and_F000 _ _ _ _).trans (by decide), by simp only [encode, fieldX_encRR, fieldY_encRR, fieldN_encRR]⟩

theorem skp (x : Reg) : Statement (.skp x) :=
  ⟨_, mem_device (.head _), (encRI_and_F0FF _ _ _).trans (by decide), by simp only [encode, fieldX_encRI]⟩

theorem sknp (x : Reg) : Statement (.sknp x) :=
  ⟨_, mem_device (.tail _ (.head _)), (encRI_and_F0FF _ _ _).trans (by decide), by simp only [encode, fieldX_encRI]⟩

theorem ldVxDt (x y : Reg) : Statement (.ldVxDt x y) :=
  ⟨_, mem_device (.tail _ (.tail _ (.head _))), (and_F00F _ _ _ _).trans (by decide), by simp only [encode, fieldX_encRR, fieldY_encRR]⟩

theorem ldKey (x y : Reg) : Statement (.ldKey x y) :=
  ⟨_, mem_device (.tail _ (.tail _ (.tail _ (.head _)))), (and_F00F _ _ _ _).trans (by decide), by simp only [encode, fieldX_encRR, fieldY_encRR]⟩

theorem ldDt (x : Reg) : Statement (.ldDt x) :=
  ⟨_, mem_device (.tail _ (.tail _ (.tail _ (.tail _ (.head _))))), (encRI_and_F0FF _ _ _).trans (by decide), by simp only [encode, fieldX_encRI]⟩

theorem ldSt (x : Reg) : Statement (.ldSt x) :=
  ⟨_, mem_device (.tail _ (.tail _ (.tail _ (.tail _ (.tail _ (.head _)))))), (encRI_and_F0FF _ _ _).trans (by decide), by simp only [encode, fieldX_encRI]⟩

theorem addI (x : Reg) : Statement (.addI x) :=
  ⟨_, mem_memory (.tail _ (.tail _ (.head _))), (encRI_and_F0FF _ _ _).trans (by decide), by simp only [encode, fieldX_encRI]⟩

theorem ldF (x : Reg) : Statement (.ldF x) :=
  ⟨_, mem_memory (.tail _ (.tail _ (.tail _ (.head _)))), (encRI_and_F0FF _ _ _).trans (by decide), by simp only [encode, fieldX_encRI]⟩

theorem ldB (x : Reg) : Statement (.ldB x) :=
  ⟨_, mem_memory (.tail _ (.tail _ (.tail _ (.tail _ (.head _))))), (encRI_and_F0FF _ _ _).trans (by decide), by simp only [encode, fieldX_encRI]⟩

theorem storeRegs (x : Reg) : Statement (.storeRegs x) :=
  ⟨_, mem_memory (.tail _ (.tail _ (.tail _ (.tail _ (.tail _ (.head _)))))), (encRI_and_F0FF _ _ _).trans (by decide), by simp only [encode, fieldX_encRI]⟩

theorem loadRegs (x : Reg) : Statement (.loadRegs x) :=
  ⟨_, mem_memory (.tail _ (.tail _ (.tail _ (.tail _ (.tail _ (.tail _ (.head _))))))), (encRI_and_F0FF _ _ _).trans (by decide), by simp only [encode, fieldX_encRI]⟩

end Sys2Proof.Laws.EncodeMatchesRow
end

