-- ==== Sys2Proof/Tests/Slice0.lean ====
section
/-! SUPPORT. Tests: ill-formed terms, words decoded, one step per instruction, and for each obligation with hypotheses a
state that meets them. Expected results come from the spec: a test's comment names the vector of spec/95_test_vectors.md
(V-…, E…) or the rule it is worked out from. -/

namespace Sys2Proof.Tests

open Sys2Proof.Machine

/-! ### Helpers -/

/-- The base state of a vector: after a reset and FrameAck, with the word where the next step fetches. -/
def ready (w : Word) : State := State.reset.frameAck.placeWord w

/-- What one step leaves, seen through `f`. -/
def see {α : Type} (s : State) (f : State → α) : Option α :=
  match step s with
  | .next t => some (f t)
  | .fault _ => none
  | .refused _ => none

/-- What a handler leaves, seen through `f`. -/
def seeExec {α : Type} (i : Instr) (s : State) (f : State → α) : Option α :=
  match exec i s with
  | .next t => some (f t)
  | .fault _ => none
  | .refused _ => none

/-- The fault port of 10_state.md R36: valid, cause, addr, word. -/
def port (s : State) : Bool × Nat × Word × Word := (s.faultValid, s.faultCode.toNat, s.faultAddr, s.faultWord)

/-! ### Ill-formed terms are refused -/

theorem test_wellFormed_refuses_sys_as_cls : (Instr.sys 0x0E0).wellFormed = false := by decide

theorem test_wellFormed_refuses_sys_as_ret : (Instr.sys 0x7EE).wellFormed = false := by decide

theorem test_wellFormed_refuses_ldReg_as_add : (Instr.ldReg 1 2 4).wellFormed = false := by decide

theorem test_wellFormed_accepts_ldReg_alias : (Instr.ldReg 1 2 8).wellFormed = true := by decide

theorem test_canonical_refuses_alias : (Instr.ldReg 1 2 8).canonical = false := by decide

/-! ### Words written out from 30_encoding.md R95 (V-DEC and the examples of the instruction rules) -/

theorem test_decode_flow :
    [0x00E0, 0x03E0, 0x00EE, 0x07EE, 0x0000, 0x00E1, 0x1228, 0x2300, 0xB300].map decodeWord =
      [some (.cls 0), some (.cls 3), some (.ret 0), some (.ret 7), some (.sys 0), some (.sys 0x0E1),
       some (.jp 0x228), some (.call 0x300), some (.jpV0 0x300)] := by decide

theorem test_decode_skips :
    [0x332A, 0x432A, 0x5120, 0x5121, 0x9120, 0x9ABF].map decodeWord =
      [some (.seImm 3 0x2A), some (.sneImm 3 0x2A), some (.seReg 1 2 0), some (.seReg 1 2 1),
       some (.sneReg 1 2 0), some (.sneReg 0xA 0xB 0xF)] := by decide

theorem test_decode_alu :
    [0x6005, 0x7002, 0x8120, 0x8128, 0x812F, 0x8121, 0x8122, 0x8123, 0x8014].map decodeWord =
      [some (.ldImm 0 5), some (.addImm 0 2), some (.ldReg 1 2 0), some (.ldReg 1 2 8), some (.ldReg 1 2 0xF),
       some (.orReg 1 2), some (.andReg 1 2), some (.xorReg 1 2), some (.addReg 0 1)] := by decide

theorem test_decode_alu2 :
    [0x8125, 0x8106, 0x8127, 0x810E, 0xC10F].map decodeWord =
      [some (.subReg 1 2), some (.shr 1 0), some (.subn 1 2), some (.shl 1 0), some (.rnd 1 0x0F)] := by decide

theorem test_decode_memory :
    [0xA2F0, 0xD015, 0xF21E, 0xF429, 0xF333, 0xF255, 0xF165].map decodeWord =
      [some (.ldI 0x2F0), some (.drw 0 1 5), some (.addI 2), some (.ldF 4), some (.ldB 3), some (.storeRegs 2),
       some (.loadRegs 1)] := by decide

theorem test_decode_device :
    [0xE29E, 0xE2A1, 0xF307, 0xF1F7, 0xF50A, 0xF11A, 0xF115, 0xF118].map decodeWord =
      [some (.skp 2), some (.sknp 2), some (.ldVxDt 3 0), some (.ldVxDt 1 0xF), some (.ldKey 5 0), some (.ldKey 1 1),
       some (.ldDt 1), some (.ldSt 1)] := by decide

theorem test_decode_unknown :
    [0xE000, 0xE19F, 0xF100, 0xF125, 0xF175, 0xFFFF].map decodeWord = [none, none, none, none, none, none] := by decide

/-- R90: fewer than two bytes is no instruction, and the bytes after the instruction are left over. -/
theorem test_decode_bytes :
    decode [0x60] = .error .truncated ∧ decode [0xE0, 0x00] = .error (.unknownInstruction 0xE000) ∧
      decode [0x60, 0x05, 0x70] = .ok (.ldImm 0 5, [0x70]) := by decide

theorem test_decodeTableWord : decodeTableWord 16 0x8014 = some (.addReg 0 1) ∧ decodeTableWord 16 0xF100 = none := by
  decide

/-- The words of the alias table of R101 encode back to themselves. -/
theorem test_encode_keeps_alias_words :
    [Instr.cls 3, .ret 7, .seReg 1 2 1, .ldReg 1 2 0xF, .ldVxDt 1 0xF].map encode =
      [0x03E0, 0x07EE, 0x5121, 0x812F, 0xF1F7] := by decide

theorem test_nameOf : nameOf 0x8014 = some "ADD Vx, Vy" ∧ nameOf 0xFFFF = none := by decide

/-! ### One step per instruction -/

/-- V-FLOW-2. -/
theorem test_sys : see { ready 0x0ABC with dt := 5, st := 1 } (fun t => (t.pc, t.dt, t.st)) = some (0x202, 4, 0) := by
  decide

/-- V-FLOW-9: the popped entry stays. -/
theorem test_ret :
    see { ready 0x00EE with sp := 2, stack := (State.reset.stack.set 0 0x222).set 1 0x456 }
      (fun t => (t.pc, t.sp, t.stack[1])) = some (0x456, 1, 0x456) := by decide

/-- V-FLOW-10. -/
theorem test_ret_underflow : see (ready 0x00EE) (fun t => (t.pc, port t)) = some (0x202, true, 2, 0x200, 0x00EE) := by
  decide

/-- V-FLOW-4. -/
theorem test_jp : see (ready 0x1FFF) State.pc = some 0xFFF := by decide

/-- V-FLOW-7: the sixteenth nested call is legal. -/
theorem test_call : see { ready 0x2ABC with sp := 15 } (fun t => (t.pc, t.sp, t.stack[15])) = some (0xABC, 16, 0x202) := by
  decide

/-- V-FLOW-8: the seventeenth faults, and there is no tick. -/
theorem test_call_overflow :
    see { ready 0x2ABC with sp := 16, dt := 9 } (fun t => (t.pc, t.dt, port t)) =
      some (0x202, 9, true, 1, 0x200, 0x2ABC) := by decide

/-- V-FLOW-13: the sum is not masked. -/
theorem test_jpV0 : see ((ready 0xBFFF).setReg 0 0xFF) State.pc = some 0x10FE := by decide

/-- V-FLOW-14, V-FLOW-15. -/
theorem test_seImm :
    see ((ready 0x3A7F).setReg 0xA 0x7F) State.pc = some 0x204 ∧
      see ((ready 0x3A7F).setReg 0xA 0x7E) State.pc = some 0x202 := by decide

/-- V-FLOW-16, V-FLOW-17. -/
theorem test_sneImm :
    see ((ready 0x4A7F).setReg 0xA 0x7F) State.pc = some 0x202 ∧
      see ((ready 0x4A7F).setReg 0xA 0x00) State.pc = some 0x204 := by decide

/-- V-FLOW-18, V-FLOW-21 (the alias with n = 7). -/
theorem test_seReg :
    see (((ready 0x5AB0).setReg 0xA 0x11).setReg 0xB 0x11) State.pc = some 0x204 ∧
      see (((ready 0x5AB7).setReg 0xA 0x11).setReg 0xB 0x12) State.pc = some 0x202 := by decide

/-- V-FLOW-22, V-FLOW-23. -/
theorem test_sneReg :
    see (((ready 0x9AB0).setReg 0xA 0x11).setReg 0xB 0x12) State.pc = some 0x204 ∧
      see (((ready 0x9AB0).setReg 0xA 0x11).setReg 0xB 0x11) State.pc = some 0x202 := by decide

/-- E4, V-ALU-1. -/
theorem test_ldImm : see (ready 0x6F12) (fun t => (t.reg 15, t.pc)) = some (0x12, 0x202) := by decide

/-- V-ALU-2: no flag. -/
theorem test_addImm :
    see (((ready 0x7A01).setReg 0xA 0xFF).setReg 15 7) (fun t => (t.reg 0xA, t.reg 15)) = some (0, 7) := by decide

/-- V-ALU-5 (the alias with n = 8). -/
theorem test_ldReg : see ((ready 0x8AB8).setReg 0xB 0x5C) (fun t => (t.reg 0xA, t.reg 0xB)) = some (0x5C, 0x5C) := by
  decide

/-- V-ALU-6. -/
theorem test_orReg :
    see ((((ready 0x8AB1).setReg 0xA 0xF0).setReg 0xB 0x0F).setReg 15 0x55) (fun t => (t.reg 0xA, t.reg 15)) =
      some (0xFF, 0x55) := by decide

/-- V-ALU-7. -/
theorem test_andReg :
    see ((((ready 0x8AB2).setReg 0xA 0xF0).setReg 0xB 0x3C).setReg 15 0x55) (fun t => (t.reg 0xA, t.reg 15)) =
      some (0x30, 0x55) := by decide

/-- V-ALU-8. -/
theorem test_xorReg :
    see ((((ready 0x8AB3).setReg 0xA 0xF0).setReg 0xB 0x3C).setReg 15 0x55) (fun t => (t.reg 0xA, t.reg 15)) =
      some (0xCC, 0x55) := by decide

/-- V-ALU-9, V-ALU-10 (sum 255 is no carry). -/
theorem test_addReg :
    see (((ready 0x8AB4).setReg 0xA 0xFF).setReg 0xB 0x01) (fun t => (t.reg 0xA, t.reg 15)) = some (0x00, 1) ∧
      see ((((ready 0x8AB4).setReg 0xA 0x80).setReg 0xB 0x7F).setReg 15 1) (fun t => (t.reg 0xA, t.reg 15)) =
        some (0xFF, 0) := by decide

/-- V-ALU-12: the flag is written last. -/
theorem test_addReg_vf : see (((ready 0x8FB4).setReg 15 0xFF).setReg 0xB 2) (fun t => t.reg 15) = some 1 := by decide

/-- V-ALU-14, V-ALU-15. -/
theorem test_subReg :
    see ((((ready 0x8AB5).setReg 0xA 5).setReg 0xB 7).setReg 15 1) (fun t => (t.reg 0xA, t.reg 15)) = some (0xFE, 0) ∧
      see (((ready 0x8AB5).setReg 0xA 7).setReg 0xB 7) (fun t => (t.reg 0xA, t.reg 15)) = some (0, 1) := by decide

/-- V-ALU-19: VB is not read; V-ALU-21b. -/
theorem test_shr :
    see (((ready 0x8AB6).setReg 0xA 5).setReg 0xB 0xFF) (fun t => (t.reg 0xA, t.reg 15)) = some (2, 1) ∧
      see ((ready 0x8FB6).setReg 15 2) (fun t => t.reg 15) = some 0 := by decide

/-- V-ALU-17, V-ALU-18. -/
theorem test_subn :
    see ((((ready 0x8AB7).setReg 0xA 7).setReg 0xB 5).setReg 15 1) (fun t => (t.reg 0xA, t.reg 15)) = some (0xFE, 0) ∧
      see (((ready 0x8AB7).setReg 0xA 5).setReg 0xB 7) (fun t => (t.reg 0xA, t.reg 15)) = some (2, 1) := by decide

/-- V-ALU-22, V-ALU-23. -/
theorem test_shl :
    see ((ready 0x8ABE).setReg 0xA 0x81) (fun t => (t.reg 0xA, t.reg 15)) = some (2, 1) ∧
      see (((ready 0x8ABE).setReg 0xA 0x40).setReg 15 1) (fun t => (t.reg 0xA, t.reg 15)) = some (0x80, 0) := by decide

/-- V-ALU-27: whatever byte is drawn, the mask 0 gives 0; R182, for every drawn byte. -/
theorem test_rnd :
    see ((ready 0xCA0F).setReg 0xA 0x11) (fun t => t.reg 0xA) = some (Config.freeByte 0 &&& 0x0F) := rfl

/-- V-MEM-1. -/
theorem test_ldI : see { ready 0xA123 with i := 0xFFFF } State.i = some 0x0123 := by decide

/-- V-MEM-2 (no mask, no flag), V-MEM-3 (wrap at 16 bits). -/
theorem test_addI :
    see (({ ready 0xFA1E with i := 0x0FFF }.setReg 0xA 1).setReg 15 9) (fun t => (t.i, t.reg 15)) = some (0x1000, 9) ∧
      see ({ ready 0xFA1E with i := 0xFFFF }.setReg 0xA 2) State.i = some 1 := by decide

/-- V-MEM-4 (low nibble only), V-MEM-5. -/
theorem test_ldF :
    see ((ready 0xFA29).setReg 0xA 0x1A) State.i = some 0x32 ∧ see ((ready 0xFA29).setReg 0xA 0x0F) State.i = some 0x4B := by
  decide

/-- V-MEM-8: the last legal address. -/
theorem test_ldB :
    see ({ ready 0xFA33 with i := 0xFFD }.setReg 0xA 0x9C) (fun t => (t.mem.readBytes 0xFFD 3, t.i)) =
      some ([1, 5, 6], 0xFFD) := by decide

/-- V-MEM-9: no byte is written. -/
theorem test_ldB_fault :
    see ({ ready 0xFA33 with i := 0xFFE }.setReg 0xA 0x9C) (fun t => (t.mem.readBytes 0xFFE 2, port t)) =
      some ([0, 0], true, 3, 0x200, 0xFA33) := by decide

/-- V-MEM-11: x = 0 stores one byte, I stays. -/
theorem test_storeRegs :
    see (({ ready 0xF055 with i := 0x400 }.setReg 0 0xAA).setReg 1 0xBB) (fun t => (t.mem.readBytes 0x400 2, t.i)) =
      some ([0xAA, 0], 0x400) := by decide

/-- V-MEM-13. -/
theorem test_storeRegs_fault :
    see { ready 0xFF55 with i := 0xFF1 } (fun t => port t) = some (true, 3, 0x200, 0xFF55) := by decide

/-- V-MEM-15: the font through a register load. -/
theorem test_loadRegs :
    see (ready 0xFF65) (fun t => t.v.toList) =
      some [0xF0, 0x90, 0x90, 0x90, 0xF0, 0x20, 0x60, 0x20, 0x20, 0x70, 0xF0, 0x10, 0xF0, 0x80, 0xF0, 0xF0] := by decide

/-- V-MEM-16: nothing is loaded. -/
theorem test_loadRegs_fault :
    see { ready 0xF165 with i := 0xFFF, mem := (ready 0xF165).mem.setByte 0xFFF 0x5A } (fun t => (t.reg 0, port t)) =
      some (0, true, 3, 0x200, 0xF165) := by decide

/-- V-CLS-1. -/
theorem test_cls :
    see { ready 0x00E0 with fb := (State.reset.fb.toggle 0 0).toggle 63 31 }
      (fun t => (t.fb.pixel 0 0, t.fb.pixel 63 31, t.fbChanged)) = some (false, false, true) := by decide

/-- V-DRW-4: the horizontal wrap. -/
theorem test_drw :
    see ({ ready 0xD011 with i := 0x300, mem := (ready 0xD011).mem.setByte 0x300 0xFF }.setReg 0 60)
      (fun t => ((List.finRange 64).filter (fun x => t.fb.pixel x 0), t.fbChanged, t.reg 15)) =
      some ([0, 1, 2, 3, 60, 61, 62, 63], true, 0) := by decide

/-- V-DRW-6: column 7 at 128 faults. -/
theorem test_drw_fault :
    see ({ ready 0xD011 with i := 0x300, mem := (ready 0xD011).mem.setByte 0x300 0x01 }.setReg 0 121)
      (fun t => (t.fbChanged, port t)) = some (false, true, 4, 0x200, 0xD011) := by decide

/-- V-KEY-1, V-KEY-5. -/
theorem test_skp :
    see ({ ready 0xEA9E with key := State.reset.key.set 7 true }.setReg 0xA 7) State.pc = some 0x204 ∧
      see ((ready 0xEA9E).setReg 0xA 0x10) (fun t => port t) = some (true, 5, 0x200, 0xEA9E) := by decide

/-- V-KEY-3, V-KEY-4. -/
theorem test_sknp :
    see ((ready 0xEAA1).setReg 0xA 7) State.pc = some 0x204 ∧
      see ({ ready 0xEAA1 with key := State.reset.key.set 7 true }.setReg 0xA 7) State.pc = some 0x202 := by decide

/-- V-TMR-1. -/
theorem test_ldVxDt : see { ready 0xFA07 with dt := 9 } (fun t => (t.reg 0xA, t.dt)) = some (9, 8) := by decide

/-- V-KEY-7: a held key does not satisfy the wait. -/
theorem test_ldKey :
    see { ready 0xFA0A with dt := 3, key := State.reset.key.set 2 true } (fun t => (t.pc, t.dt, t.wait, t.waitReg)) =
      some (0x202, 2, true, 10) := by decide

/-- V-TMR-4. -/
theorem test_ldDt : see ((ready 0xFA15).setReg 0xA 0x3C) State.dt = some 59 := by decide

/-- V-TMR-7. -/
theorem test_ldSt : see ({ ready 0xFA18 with dt := 1 }.setReg 0xA 2) (fun t => (t.dt, t.st)) = some (0, 1) := by decide

/-! ### The step, the host and the primitive -/

/-- V-UNK-1. -/
theorem test_unknown_step :
    see { ready 0xE000 with dt := 2, st := 2 } (fun t => (t.pc, t.dt, t.st, t.reports)) =
      some (0x202, 1, 1, [⟨0x200, 0xE000⟩]) := by decide

/-- V-FLOW-5: a fetch fault does not advance PC. -/
theorem test_fetch_fault :
    see { State.reset with pc := 0xFFF } (fun t => (t.pc, port t)) = some (0xFFF, true, 3, 0xFFF, 0) := by decide

/-- V-FLOW-26: an odd PC is fetched like any other. -/
theorem test_odd_pc : see ({ State.reset with pc := 0x301 }.placeWord 0x6A55) (fun t => (t.pc, t.reg 0xA)) = some (0x303, 0x55) := by
  decide

/-- Log 8: the step after `withFetchWord` runs the placed word, from a halted state with an unfetchable PC too. -/
theorem test_withFetchWord :
    see ({ State.reset with pc := 0xFFF, wait := true }.withFetchWord 16 0x6005) (fun t => (t.reg 0, t.pc)) =
      some (5, 0x202) := by decide

/-- Scenario S1: the code goes to the recorded register, the latch stays. -/
theorem test_submitKey :
    (let t := { State.reset with wait := true, waitReg := 5 }.submitKey 0xB true
     (t.reg 5, t.wait, t.key[0xB])) = (0x0B, false, false) := by decide

/-- R129: a program of two bytes. -/
theorem test_load : ((State.reset.load [0x60, 0x05]).1.mem.readBytes 0x200 3, (State.reset.load [0x60, 0x05]).2) =
    ([0x60, 0x05, 0], .ok) := by decide

/-- V-PIX-3, V-PIX-4, V-PIX-8. -/
theorem test_setPixel_wraps :
    (gridCoord 64 0, gridCoord (-1) 0, gridCoord (-64) (-32)) = (some (0, 0), some (63, 0), some (0, 0)) := by decide

/-- V-PIX-10 to V-PIX-13. -/
theorem test_setPixel_beyond :
    (gridCoord 128 0, gridCoord (-65) 0, gridCoord 0 64, gridCoord 0 (-33)) = (none, none, none, none) := by decide

/-! ### Witnesses: states and operands that meet the hypotheses of the obligations, clause by clause -/

theorem fetches {s : State} {w : Word} (h : s.fault = none) (h' : s.wait = false) (hp : s.pc.toNat ≤ 0xFFE)
    (hw : w.toNat = (s.mem.byteAt s.pc.toNat).toNat * 256 + (s.mem.byteAt (s.pc.toNat + 1)).toNat) : FetchesWord s w :=
  ⟨⟨h, h'⟩, hp, hw⟩

/-- The hypotheses of the `DecodesAs` clauses: each key itself is a word of its row. -/
theorem witness_DecodesAs :
    ((0x00EE : Word) &&& 0xF0FF = 0x00EE) ∧ ((0x00E0 : Word) &&& 0xF0FF = 0x00E0) ∧ ((0x2FFF : Word) &&& 0xF000 = 0x2000) ∧
      ((0x1FFF : Word) &&& 0xF000 = 0x1000) ∧ ((0xBFFF : Word) &&& 0xF000 = 0xB000) ∧ ((0x3FFF : Word) &&& 0xF000 = 0x3000) ∧
      ((0x4FFF : Word) &&& 0xF000 = 0x4000) ∧ ((0x5FFF : Word) &&& 0xF000 = 0x5000) ∧ ((0x9FFF : Word) &&& 0xF000 = 0x9000) ∧
      ((0x6FFF : Word) &&& 0xF000 = 0x6000) ∧ ((0x7FFF : Word) &&& 0xF000 = 0x7000) ∧ ((0xAFFF : Word) &&& 0xF000 = 0xA000) ∧
      ((0xCFFF : Word) &&& 0xF000 = 0xC000) ∧ ((0xDFFF : Word) &&& 0xF000 = 0xD000) := by decide

theorem witness_DecodesAs_functions :
    ((0x8FF1 : Word) &&& 0xF00F = 0x8001) ∧ ((0x8FF2 : Word) &&& 0xF00F = 0x8002) ∧ ((0x8FF3 : Word) &&& 0xF00F = 0x8003) ∧
      ((0x8FF4 : Word) &&& 0xF00F = 0x8004) ∧ ((0x8FF5 : Word) &&& 0xF00F = 0x8005) ∧ ((0x8FF6 : Word) &&& 0xF00F = 0x8006) ∧
      ((0x8FF7 : Word) &&& 0xF00F = 0x8007) ∧ ((0x8FFE : Word) &&& 0xF00F = 0x800E) ∧ ((0xFFF7 : Word) &&& 0xF00F = 0xF007) ∧
      ((0xFFFA : Word) &&& 0xF00F = 0xF00A) := by decide

theorem witness_DecodesAs_bytes :
    ((0xEF9E : Word) &&& 0xF0FF = 0xE09E) ∧ ((0xEFA1 : Word) &&& 0xF0FF = 0xE0A1) ∧ ((0xFF15 : Word) &&& 0xF0FF = 0xF015) ∧
      ((0xFF18 : Word) &&& 0xF0FF = 0xF018) ∧ ((0xFF1E : Word) &&& 0xF0FF = 0xF01E) ∧ ((0xFF29 : Word) &&& 0xF0FF = 0xF029) ∧
      ((0xFF33 : Word) &&& 0xF0FF = 0xF033) ∧ ((0xFF55 : Word) &&& 0xF0FF = 0xF055) ∧ ((0xFF65 : Word) &&& 0xF0FF = 0xF065) := by
  decide

theorem witness_LoadPlacesTheProgram :
    ([] : List Byte).length ≤ 3584 ∧ (List.replicate 3584 (0x11 : Byte)).length ≤ 3584 ∧
      0 < (List.replicate 3584 (0x11 : Byte)).length ∧ 0x200 + (List.replicate 3583 (0x11 : Byte)).length ≤ 0xFFF := by
  simp only [List.length_replicate, List.length_nil]; decide

theorem witness_TooLongLoadLeavesTheResetState : 3584 < (List.replicate 3585 (0x11 : Byte)).length := by
  rw [List.length_replicate]; decide

theorem witness_SubmitKeyActs :
    ({ State.reset with wait := true } : State).wait = true ∧ State.reset.wait = false ∧ (0 : Fin 16) ≠ 15 := by decide

theorem witness_OnlyAResetEndsAFault :
    ({ State.reset with fault := some ⟨.stackUnderflow, 0x200, 0x00EE⟩ } : State).faultValid = true ∧
      (∀ x ∈ [Transaction.step, .submitKey 3 true, .frameAck], x ≠ .coldReset ∧ ∀ bytes, x ≠ .load bytes) := by
  refine ⟨rfl, ?_⟩
  simp

theorem witness_DecoderExtractsTheFields : (3 < 4) ∧ (7 < 8) ∧ (11 < 12) := by decide

theorem witness_DecodeOfEncodeIsTheInstruction :
    (Instr.sys 0xFFF).wellFormed = true ∧ (Instr.ldReg 15 15 15).wellFormed = true ∧ (Instr.drw 15 0 15).wellFormed = true := by
  decide

theorem witness_EncodeOfDecodeIsTheWord : decodeWord 0x01EE = some (.ret 1) ∧ decodeWord 0xFF65 = some (.loadRegs 15) := by
  decide

/-- Both sides of the equivalence: a word two rows match, and a word none matches. -/
theorem witness_MostSpecificKeyWins : (dispatch 0x8FF4).map KeyRow.name = some "ADD Vx, Vy" ∧ nameOf 0xE000 = none := by
  decide

theorem witness_AliasWordsRunAsTheNamedInstruction :
    (1 : Nibble) ≠ 0 ∧ (15 : Nibble) ≠ 0 ∧ (8 : Nibble).val ∈ [8, 9, 0xA, 0xB, 0xC, 0xD, 0xF] ∧
      (15 : Nibble).val ∈ [8, 9, 0xA, 0xB, 0xC, 0xD, 0xF] := by decide

/-- A known word (both fault outcomes), a stop, an unknown word, a halted, a blocked and an unfetchable state. -/
theorem witness_StepRunsTheDecodedInstruction :
    FetchesWord (ready 0x6005) 0x6005 ∧ seeExec (.ldImm 0 5) (ready 0x6005).advance State.faultValid = some false ∧
      FetchesWord (ready 0x00EE) 0x00EE ∧ seeExec (.ret 0) (ready 0x00EE).advance State.faultValid = some true :=
  ⟨fetches rfl rfl (by decide) (by decide), by decide, fetches rfl rfl (by decide) (by decide), by decide⟩

theorem witness_StepRunsTheDecodedInstruction_stop :
    FetchesWord { ready 0x00EE with sp := 17 } 0x00EE ∧
      exec (.ret 0) { ready 0x00EE with sp := 17, pc := 0x202 } = .fault (.illegalStackPointer 17) :=
  ⟨fetches rfl rfl (by decide) (by decide), rfl⟩

theorem witness_StepRunsTheDecodedInstruction_none :
    FetchesWord (ready 0xE000) 0xE000 ∧ decodeWord 0xE000 = none ∧
      ({ State.reset with fault := some ⟨.stackUnderflow, 0, 0⟩ } : State).faultValid = true ∧
      ({ State.reset with wait := true } : State).wait = true ∧
      ({ State.reset with pc := 0xFFF } : State).running ∧ 0xFFE < (0xFFF : Word).toNat :=
  ⟨fetches rfl rfl (by decide) (by decide), by decide, rfl, rfl, ⟨rfl, rfl⟩, by decide⟩

theorem witness_FetchFaultsAboveFFEAndAdvancesBelow :
    ({ State.reset with pc := 0xFFE } : State).running ∧ (0xFFE : Word).toNat ≤ 0xFFE ∧ 0xFFE < (0xFFF : Word).toNat :=
  ⟨⟨rfl, rfl⟩, by decide, by decide⟩

theorem witness_StepsAreNoOpsWhileBlockedOrHalted :
    ({ State.reset with wait := true } : State).wait = true ∧
      ({ State.reset with fault := some ⟨.stackUnderflow, 0, 0⟩ } : State).faultValid = true := by decide

theorem witness_UnknownWordIsReportedAndSkipped : FetchesWord (ready 0xFFFF) 0xFFFF ∧ decodeWord 0xFFFF = none :=
  ⟨fetches rfl rfl (by decide) (by decide), by decide⟩

theorem witness_FaultsArePrecise :
    FetchesWord (ready 0xFF9E) 0xFF9E ∨ (FetchesWord (ready 0x00EE) 0x00EE ∧ decodeWord 0x00EE = some (.ret 0) ∧
      seeExec (.ret 0) { ready 0x00EE with pc := 0x202 } State.faultValid = some true) :=
  .inr ⟨fetches rfl rfl (by decide) (by decide), by decide, by decide⟩

/-- Each of the five codes is raised by some step. -/
theorem witness_EachFaultHasExactlyItsCondition :
    see { ready 0x2ABC with sp := 16 } (fun t => t.faultCode.toNat) = some 1 ∧
      see (ready 0x00EE) (fun t => t.faultCode.toNat) = some 2 ∧
      see { ready 0xD012 with i := 0xFFF } (fun t => t.faultCode.toNat) = some 3 ∧
      see ((ready 0xD011).setReg 0 200) (fun t => t.faultCode.toNat) = some 4 ∧
      see ((ready 0xEA9E).setReg 0xA 16) (fun t => t.faultCode.toNat) = some 5 := by decide

/-- Code 3 for the other three instructions, each just above its range, and none at its bound. -/
theorem witness_EachFaultHasExactlyItsCondition_bounds :
    see { ready 0xF033 with i := 0xFFE } (fun t => t.faultCode.toNat) = some 3 ∧
      see { ready 0xF155 with i := 0xFFF } (fun t => t.faultCode.toNat) = some 3 ∧
      see { ready 0xF165 with i := 0xFFF } (fun t => t.faultCode.toNat) = some 3 ∧
      see { ready 0xF155 with i := 0xFFE } (fun t => t.faultCode.toNat) = some 0 := by decide

theorem witness_TimersTickOncePerExecutedStep :
    FetchesWord (ready 0xFA15) 0xFA15 ∧ decodeWord 0xFA15 = some (.ldDt 10) ∧
      FetchesWord (ready 0xFA18) 0xFA18 ∧ decodeWord 0xFA18 = some (.ldSt 10) ∧
      FetchesWord (ready 0xFA07) 0xFA07 ∧ decodeWord 0xFA07 = some (.ldVxDt 10 0) ∧
      see (ready 0xFA15) State.faultValid = some false ∧ see (ready 0x00EE) State.faultValid = some true :=
  ⟨fetches rfl rfl (by decide) (by decide), by decide, fetches rfl rfl (by decide) (by decide), by decide,
    fetches rfl rfl (by decide) (by decide), by decide, by decide, by decide⟩

theorem witness_reset_inv : State.reset.Inv := by
  refine ⟨rfl, by decide, by decide, by decide, fun r hr => ?_⟩
  exact absurd hr List.not_mem_nil

/-- The premise of the invariant obligations: the reset state has the invariant and its step answers. -/
theorem witness_EveryStepKeepsTheInvariant : State.reset.Inv ∧ see State.reset State.pc = some 0x202 :=
  ⟨witness_reset_inv, by decide⟩

theorem witness_StepAlwaysAnswersANextState : ({ ready 0x2ABC with sp := 16 } : State).sp.toNat ≤ 16 := by decide

theorem witness_ReachableStatesMeetTheStatedInvariants : State.reset.Reachable ∧ State.reset.frameAck.Reachable :=
  ⟨⟨[], rfl⟩, ⟨[.frameAck], rfl⟩⟩

theorem witness_StopsOnlyAtAnIllegalStackPointer :
    16 < ({ State.reset with sp := 17 } : State).sp.toNat ∧ ({ State.reset with sp := 16 } : State).sp.toNat ≤ 16 := by
  decide

theorem witness_StopsOnlyAtAnIllegalStackPointer_others :
    (∀ x, Instr.jp 5 ≠ .ret x) ∧ (∀ nnn, Instr.jp 5 ≠ .call nnn) ∧
      seeExec (.jp 5) { State.reset with sp := 17 } State.pc = some 5 :=
  ⟨fun _ h => (nomatch h), fun _ h => (nomatch h), by decide⟩

theorem witness_SysDoesNothing :
    (0x0123 : Word) &&& 0xF000 = 0 ∧ (0x0123 : Word) &&& 0x00FF ≠ 0xE0 ∧ (0x0123 : Word) &&& 0x00FF ≠ 0xEE := by decide

theorem witness_RetPopsTheReturnAddress :
    ({ State.reset with sp := 1 } : State).sp.toNat = (0 : Fin 16).val + 1 ∧
      ({ State.reset with sp := 16 } : State).sp.toNat = (15 : Fin 16).val + 1 ∧ State.reset.sp.toNat = 0 := by decide

theorem witness_CallPushesTheReturnAddress :
    State.reset.sp.toNat = (0 : Fin 16).val ∧ ({ State.reset with sp := 15 } : State).sp.toNat = (15 : Fin 16).val ∧
      ({ State.reset with sp := 16 } : State).sp.toNat = 16 := by decide

/-- The call at `SP = 15`, and the state it leaves is a later state of the statement. -/
theorem witness_ReturnResumesAfterTheCall :
    ({ State.reset with sp := 15 } : State).sp.toNat < 16 ∧
      seeExec (.call 0x300) { State.reset with sp := 15 } (fun t => t.sp) = some 16 := by decide

theorem witness_LoadsAndAddImmediate :
    (0x8FF0 : Word) &&& 0xF000 = 0x8000 ∧ (0x8FFF : Word) &&& 0xF000 = 0x8000 ∧
      (0x8FF0 : Word).toNat % 16 ∈ [0, 8, 9, 0xA, 0xB, 0xC, 0xD, 0xF] ∧
      (0x8FFF : Word).toNat % 16 ∈ [0, 8, 9, 0xA, 0xB, 0xC, 0xD, 0xF] := by decide

/-- For the four statements about a result and a flag: a destination that is not `VF`. -/
theorem witness_result_register : (14 : Reg).val ≠ 15 ∧ (0 : Reg).val ≠ 15 := by decide

theorem witness_BcdStoresThreeDigits : (0xFFD : Word).toNat ≤ 0xFFD ∧ 0xFFD < (0xFFE : Word).toNat := by decide

/-- For the store and the load: the last address that fits and the first that does not, `x = 15`. -/
theorem witness_register_ranges :
    (0xFF0 : Word).toNat + (15 : Reg).val ≤ 0xFFF ∧ 0xFFF < (0xFF1 : Word).toNat + (15 : Reg).val ∧
      (0xFFF : Word).toNat + (0 : Reg).val ≤ 0xFFF ∧ (15 : Reg) ≤ 15 ∧ (0 : Reg) ≤ 0 := by decide

/-- The state the store leaves is a later state of the statement. -/
theorem witness_StoredRegistersLoadBack :
    seeExec (.storeRegs 1) { State.reset with i := 0xFFE } (fun t => (t.i, t.fault)) = some (0xFFE, none) := by decide

theorem witness_StoredInstructionsAreFetched :
    (0xFFE : Word).toNat + (1 : Reg).val ≤ 0xFFF ∧ (1 : Reg).val = (0 : Reg).val + 1 ∧ (1 : Reg) ≤ 1 ∧
      ({ State.reset with i := 0xFFE, pc := 0xFFE } : State).running ∧
      ({ State.reset with i := 0xFFE, pc := 0xFFE } : State).pc.toNat = (0xFFE : Word).toNat + (0 : Reg).val :=
  ⟨by decide, by decide, by decide, ⟨rfl, rfl⟩, by decide⟩

theorem witness_SetPixelWrapsOnce :
    ((-64 : Int) ≤ -64 ∧ (-64 : Int) ≤ 127 ∧ (-32 : Int) ≤ 63 ∧ (63 : Int) ≤ 63) ∧
      ¬((-64 : Int) ≤ 128 ∧ (128 : Int) ≤ 127) ∧ ((63 : Fin 64).val : Int) = 127 % 64 ∧ ((31 : Fin 32).val : Int) = -1 % 32 := by
  decide

theorem witness_SetPixelIsItsOwnInverse :
    (State.reset.fb.setPixel 127 63).map (fun p => (p.1.pixel 63 31, p.2)) = some (true, false) := by decide

/-- A sprite of one row at the last address of memory, at the far corner of the screen's reach. -/
def corner : State := (({ State.reset with i := 0xFFF, mem := State.reset.mem.setByte 0xFFF 0xFF }).setReg 0 120).setReg 1 63

theorem corner_onGrid : SpriteOnGrid corner 0 1 1 := by
  rintro r c ⟨hr, hc, -⟩
  have h0 : (corner.reg 0).toNat = 120 := by decide
  have h1 : (corner.reg 1).toNat = 63 := by decide
  have hr' : r < 1 := hr
  rw [h0, h1]; omega

/-- Both checks pass, a pixel is touched, another is not, and the touched one may be on or off. -/
theorem witness_DrawTogglesTheSpritePixels :
    SpriteReadable corner 1 ∧ SpriteOnGrid corner 0 1 1 ∧ Touches corner 0 1 1 63 31 ∧ ¬Touches corner 0 1 1 0 0 := by
  refine ⟨.inr (by decide), corner_onGrid, ⟨0, 7, ⟨by decide, by decide, by decide⟩, by decide, by decide⟩, ?_⟩
  rintro ⟨r, c, ⟨hr, hc, -⟩, hx, -⟩
  have h0 : (corner.reg 0).toNat = 120 := by decide
  rw [h0] at hx
  simp only [Fin.val_zero] at hx
  omega

/-- The same pixel on in the state before: a collision. -/
theorem witness_DrawTogglesTheSpritePixels_collision :
    Touches { corner with fb := corner.fb.toggle 63 31 } 0 1 1 63 31 ∧ (corner.fb.toggle 63 31).pixel 63 31 = true :=
  ⟨⟨0, 7, ⟨by decide, by decide, by decide⟩, by decide, by decide⟩, by decide⟩

/-- The two faults: a second row has no address; the last column is out of reach. -/
theorem witness_DrawTogglesTheSpritePixels_faults :
    ¬SpriteReadable corner 2 ∧ SpriteReadable (corner.setReg 0 121) 1 ∧ ¬SpriteOnGrid (corner.setReg 0 121) 0 1 1 := by
  refine ⟨fun h => ?_, .inr (by decide), fun h => ?_⟩
  · rcases h with h | h
    · exact absurd h (by decide)
    · exact absurd h (by decide)
  · have := (h 0 7 ⟨by decide, by decide, by decide⟩).1
    exact absurd this (by decide)

theorem witness_DrawsNearTheScreenNeverFault :
    1 ≤ (1 : Nibble).val ∧ (0xFFF : Word).toNat + (1 : Nibble).val - 1 ≤ 0xFFF ∧ (corner.reg 0).toNat ≤ 120 ∧
      (corner.reg 1).toNat + (1 : Nibble).val ≤ 64 ∧ (0xFF1 : Word).toNat + (15 : Nibble).val - 1 ≤ 0xFFF ∧
      ((State.reset.setReg 0 63).reg 0).toNat ≤ 63 ∧ ((State.reset.setReg 1 31).reg 1).toNat ≤ 31 := by decide

/-- The state the first draw leaves is a later state of the statement, and its pixels were off before. -/
theorem witness_DrawingTwiceRestoresTheScreen :
    SpriteReadable corner 1 ∧ SpriteOnGrid corner 0 1 1 ∧ corner.fb.pixel 63 31 = false ∧
      seeExec (.drw 0 1 1) corner (fun t => (t.i, t.reg 0, t.reg 1, t.mem.byteAt 0xFFF)) = some (0xFFF, 120, 63, 0xFF) :=
  ⟨.inr (by decide), corner_onGrid, by decide, by decide⟩

theorem witness_KeySkipsReadTheLatch :
    ((State.reset.setReg 2 15).reg 2).toNat = (15 : Fin 16).val ∧ (State.reset.reg 2).toNat = (0 : Fin 16).val ∧
      15 < ((State.reset.setReg 2 16).reg 2).toNat := by decide

theorem witness_KeyWaitEndToEnd : FetchesWord (ready 0xF50A) 0xF50A ∧ decodeWord 0xF50A = some (.ldKey 5 0) :=
  ⟨fetches rfl rfl (by decide) (by decide), by decide⟩

theorem witness_RegistersChangeOnlyAsTheTableSays :
    seeExec (.addReg 0 1) State.reset State.pc = some 0x200 ∧ (1 : Reg) ∉ destinations (.addReg 0 1) ∧
      (4 : Reg) ∉ destinations (.loadRegs 3) := by decide

/-- For each piece of state, a handler that changes it. -/
theorem witness_EachPieceOfStateHasItsWriters :
    seeExec (.ldImm 3 5) State.reset (fun t => t.reg 3) = some 5 ∧
      seeExec (.ldI 5) State.reset State.i = some 5 ∧ seeExec (.call 5) State.reset State.sp = some 1 ∧
      seeExec (.ldDt 0) (State.reset.setReg 0 5) State.dt = some 5 ∧
      seeExec (.ldSt 0) (State.reset.setReg 0 5) State.st = some 5 ∧
      seeExec (.ldKey 3 0) State.reset State.waitReg = some 3 ∧ seeExec (.jp 5) State.reset State.pc = some 5 ∧
      seeExec (.ret 0) State.reset State.faultValid = some true := by decide

theorem witness_EachPieceOfStateHasItsWriters_memory :
    seeExec (.storeRegs 0) { State.reset.setReg 0 5 with i := 0x300 } State.mem = some [(0x300, 5)] ∧
      seeExec (.drw 0 0 1) State.reset (fun t => t.fb.pixel 0 0) = some true := by decide

theorem witness_OddPcComesOnlyFromAJump : see (ready 0x1201) State.pc = some 0x201 ∧ (ready 0x1201).pc.toNat % 2 = 0 := by
  decide

end Sys2Proof.Tests
end

/-! PROOFS of the family 10_state: what a handler may write, the invariant of the engine, and the rules on the pieces
of state. -/

namespace Sys2Proof.Machine

variable {i : Instr} {s t : State} {c : MayChange}

/-! ### Reading a frame -/

theorem Frame.reg_eq (h : Frame c s t) {r : Reg} (hr : r ∉ c.regs) : t.reg r = s.reg r := h.1 r hr

theorem Frame.pc_eq (h : Frame c s t) (hc : c.pc = false) : t.pc = s.pc := by
  obtain ⟨-, -, -, hpc, -⟩ := h
  exact hpc hc

theorem Frame.stack_eq (h : Frame c s t) (hc : c.stack = false) : t.sp = s.sp ∧ t.stack = s.stack := by
  obtain ⟨-, -, -, -, hstack, -⟩ := h
  exact hstack hc

theorem Frame.fault_eq (h : Frame c s t) (hc : c.fault = false) : t.fault = s.fault := by
  obtain ⟨-, -, -, -, -, -, -, -, -, hfault, -⟩ := h
  exact hfault hc

theorem Frame.reports_eq (h : Frame c s t) : t.reports = s.reports := by
  obtain ⟨-, -, -, -, -, -, -, -, -, -, -, -, hreports⟩ := h
  exact hreports

/-! ### What a handler writes when it does not fault -/

/-- The "written by" columns of 10_state.md R38, for a handler that does not fault: the pieces of state that the effect
of `i` may change. -/
def handlerWrites (i : Instr) (s : State) : MayChange where
  regs := destinations i
  mem := match i with
    | .ldB _ => addresses s.i.toNat 3
    | .storeRegs x => addresses s.i.toNat (x.val + 1)
    | _ => []
  i := match i with
    | .ldI _ | .addI _ | .ldF _ => true
    | _ => false
  pc := match i with
    | .jp _ | .call _ | .jpV0 _ | .ret _ | .skp _ | .sknp _ | .seImm _ _ | .sneImm _ _ | .seReg _ _ _
    | .sneReg _ _ _ => true
    | _ => false
  stack := match i with
    | .call _ | .ret _ => true
    | _ => false
  dt := match i with
    | .ldDt _ => true
    | _ => false
  st := match i with
    | .ldSt _ => true
    | _ => false
  wait := match i with
    | .ldKey _ _ => true
    | _ => false
  display := match i with
    | .cls _ | .drw _ _ _ => true
    | _ => false
  draws := match i with
    | .rnd _ _ => true
    | _ => false

theorem frame_stack_pc (s : State) (stack : Vector Word 16) (sp pc : Word) :
    Frame { pc := true, stack := true } s { s with stack := stack, sp := sp, pc := pc } := by simp [Frame, State.reg]

theorem frame_draw (s : State) (fb : Framebuffer) (f : Bool) :
    Frame { regs := [vf], display := true } s ({ s with fb := fb, fbChanged := true }.setFlag f) := by
  have hreg (r : Reg) : State.reg { s with fb := fb, fbChanged := true } r = s.reg r := rfl
  simp +contextual [Frame, State.reg_setFlag, hreg]

theorem frame_loadedRegs (s : State) (x : Reg) :
    Frame { regs := destinations (.loadRegs x) } s { s with v := s.loadedRegs x } := by
  simp +contextual [Frame, destinations, State.reg_loadedRegs]

/-- The effect of a handler stays within what it writes. -/
theorem Effect.frame (h : Effect i s t) : Frame (handlerWrites i s) s t := by
  cases i with
  | cls => obtain rfl := h; exact frame_clearScreen s
  | sys => obtain rfl := h; exact Frame.refl _ t
  | jp | jpV0 => obtain rfl := h; exact frame_pc s _
  | ret | call => obtain ⟨k, -, rfl⟩ := h; exact frame_stack_pc s _ _ _
  | seImm | sneImm | seReg | sneReg | skp | sknp => obtain ⟨b, rfl⟩ := h; exact frame_skipIf s b
  | ldImm | addImm | ldReg | orReg | andReg | xorReg | ldVxDt => obtain rfl := h; exact frame_setReg s _ _
  | addReg | subReg | shr | subn | shl => obtain ⟨o, r, f, rfl⟩ := h; exact frame_setResultFlag s o _ r f
  | rnd x kk => obtain rfl := h; exact frame_drawInto s x kk
  | drw => obtain ⟨fb, f, rfl⟩ := h; exact frame_draw s fb f
  | ldI | addI | ldF => obtain rfl := h; exact frame_i s _
  | ldKey x => obtain rfl := h; exact frame_wait s true x
  | ldDt => obtain rfl := h; exact frame_dt s _
  | ldSt => obtain rfl := h; exact frame_st s _
  | ldB => obtain ⟨-, rfl⟩ := h; exact frame_writeBytes s _ _
  | storeRegs x =>
    obtain ⟨-, rfl⟩ := h
    have hw := frame_writeBytes s s.i.toNat (s.regsUpTo x)
    rwa [State.length_regsUpTo] at hw
  | loadRegs x => obtain ⟨-, rfl⟩ := h; exact frame_loadedRegs s x

/-- A frame compares memory byte by byte; a handler that writes no address leaves the list itself alone. -/
theorem Effect.mem_eq (h : Effect i s t) (hm : (handlerWrites i s).mem = []) : t.mem = s.mem := by
  cases i with
  | ldB => exact absurd hm (by simp [handlerWrites, addresses])
  | storeRegs => exact absurd hm (by simp [handlerWrites, addresses])
  | ret | call => obtain ⟨k, -, rfl⟩ := h; rfl
  | seImm | sneImm | seReg | sneReg | skp | sknp => obtain ⟨b, rfl⟩ := h; exact s.skipIf_mem b
  | addReg | subReg | shr | subn | shl => obtain ⟨o, r, f, rfl⟩ := h; exact s.setResultFlag_mem o _ r f
  | drw => obtain ⟨fb, f, rfl⟩ := h; rfl
  | loadRegs => obtain ⟨-, rfl⟩ := h; rfl
  | _ => obtain rfl := h; rfl

/-! ### Which instructions write a piece (10_state.md R38) -/

theorem i_writers (h : (handlerWrites i s).i ≠ false) : (∃ nnn, i = .ldI nnn) ∨ ∃ x, i = .addI x ∨ i = .ldF x := by
  cases i with
  | ldI | addI | ldF => simp
  | _ => exact absurd rfl h

theorem stack_writers (h : (handlerWrites i s).stack ≠ false) : (∃ nnn, i = .call nnn) ∨ ∃ x, i = .ret x := by
  cases i with
  | call | ret => simp
  | _ => exact absurd rfl h

theorem dt_writers (h : (handlerWrites i s).dt ≠ false) : ∃ x, i = .ldDt x := by
  cases i with
  | ldDt => simp
  | _ => exact absurd rfl h

theorem st_writers (h : (handlerWrites i s).st ≠ false) : ∃ x, i = .ldSt x := by
  cases i with
  | ldSt => simp
  | _ => exact absurd rfl h

theorem wait_writers (h : (handlerWrites i s).wait ≠ false) : ∃ x y, i = .ldKey x y := by
  cases i with
  | ldKey => simp
  | _ => exact absurd rfl h

theorem mem_writers (h : (handlerWrites i s).mem ≠ []) : ∃ x, i = .ldB x ∨ i = .storeRegs x := by
  cases i with
  | ldB | storeRegs => simp
  | _ => exact absurd rfl h

theorem display_writers (h : (handlerWrites i s).display ≠ false) : (∃ x, i = .cls x) ∨ ∃ x y n, i = .drw x y n := by
  cases i with
  | cls | drw => simp
  | _ => exact absurd rfl h

theorem pc_writers (h : (handlerWrites i s).pc ≠ false) :
    (∃ nnn, i = .jp nnn ∨ i = .call nnn ∨ i = .jpV0 nnn) ∨ (∃ x, i = .ret x ∨ i = .skp x ∨ i = .sknp x) ∨
      (∃ x kk, i = .seImm x kk ∨ i = .sneImm x kk) ∨ ∃ x y n, i = .seReg x y n ∨ i = .sneReg x y n := by
  cases i with
  | jp | call | jpV0 | ret | skp | sknp | seImm | sneImm | seReg | sneReg => simp
  | _ => exact absurd rfl h

/-- Settles O58: a fault entry leaves the registers, and an effect writes only its destinations. -/
theorem registersChangeOnlyAsTheTableSays : Obligations.RegistersChangeOnlyAsTheTableSays := by
  intro i s t h r hr
  obtain ⟨c, rfl, -⟩ | he := exec_next_cases h
  · rfl
  · exact he.frame.reg_eq hr

/-- Settles O59: a fault entry changes `FAULT` alone; the frame of an effect says which pieces it may change, and the
writers of each piece are read off the columns of `handlerWrites`. -/
theorem eachPieceOfStateHasItsWriters : Obligations.EachPieceOfStateHasItsWriters := by
  intro i s t h
  obtain ⟨c, rfl, hc⟩ | he := exec_next_cases h
  · have hreg (r : Reg) : (s.raise c i).reg r = s.reg r := rfl
    simpa [hreg, CanFault] using fun _ => hc
  · obtain ⟨hreg, -, hi, hpc, hstack, hdt, hst, hwait, hdisplay, hfault, -, hkey, hreports⟩ := he.frame
    refine ⟨fun ⟨r, hr⟩ hd => hr (hreg r ?_), fun hne => i_writers (mt hi hne),
      fun hne => stack_writers (mt hstack (not_and_or.2 hne)), fun hne => dt_writers (mt hdt hne),
      fun hne => st_writers (mt hst hne), fun hne => wait_writers (mt hwait (not_and_or.2 hne)),
      fun hne => mem_writers (mt he.mem_eq hne), fun hne => display_writers (mt hdisplay (not_and_or.2 hne)),
      fun hne => pc_writers (mt hpc hne), fun hne => absurd (hfault rfl) hne, hkey, hreports⟩
    simp [handlerWrites, hd]

/-! ### The parity of `PC` -/

/-- Only a jump, a call or a return takes `PC` from elsewhere; every other effect leaves it or skips (41_flow.md
R159). -/
theorem Effect.pc_cases (h : Effect i s t) :
    ((∃ nnn, i = .jp nnn ∨ i = .call nnn ∨ i = .jpV0 nnn) ∨ ∃ x, i = .ret x) ∨ t.pc = s.pc ∨ t.pc = s.pc + 2 := by
  cases i with
  | jp | call | jpV0 | ret => simp
  | seImm | sneImm | seReg | sneReg | skp | sknp =>
    obtain ⟨b, rfl⟩ := h
    cases b
    · exact .inr (.inl rfl)
    · exact .inr (.inr rfl)
  | _ => exact .inr (.inl (h.frame.pc_eq rfl))

/-- The end of a step leaves `PC` where the handler put it. -/
theorem pc_ite_tick (b : Bool) : (if b then s else s.tick).pc = s.pc := by cases b <;> rfl

/-- Settles O60: a step whose instruction is no jump, call or return moves `PC` by 0, 2 or 4. -/
theorem oddPcComesOnlyFromAJump : Obligations.OddPcComesOnlyFromAJump := by
  intro s t h heven hodd
  have hadv := toNat_add_two s.pc
  obtain ⟨-, rfl⟩ | ⟨-, -, rfl⟩ | ⟨w, -, -, -, rfl⟩ | ⟨w, i, u, hrun, hw, hi, hu, rfl⟩ := step_next_cases h
  · omega
  · simp only [State.raiseFetch_pc] at hodd; omega
  · simp only [State.tick_pc, State.report_pc, State.advance_pc] at hodd; omega
  · refine ⟨w, i, (fetchesWord_iff s w).2 ⟨hrun, hw⟩, hi, ?_⟩
    rw [pc_ite_tick] at hodd
    obtain ⟨c, rfl, -⟩ | he := exec_next_cases hu
    · simp only [State.raise_pc, State.advance_pc] at hodd; omega
    · obtain hjump | hpc | hpc := he.pc_cases
      · exact hjump
      · rw [hpc, State.advance_pc] at hodd; omega
      · rw [hpc, State.advance_pc, toNat_add_two] at hodd; omega

/-! ### The invariant under a step (R40) -/

theorem Effect.mem_wf (h : Effect i s t) (hm : s.mem.wf = true) : t.mem.wf = true := by
  cases i with
  | ldB x =>
    obtain ⟨hle, rfl⟩ := h
    exact Memory.wf_writeBytes (bcdDigits (s.reg x)) hle hm
  | storeRegs x =>
    obtain ⟨hle, rfl⟩ := h
    exact Memory.wf_writeBytes (s.regsUpTo x) (by rwa [State.length_regsUpTo]) hm
  | _ => rw [h.mem_eq rfl]; exact hm

theorem Effect.sp_le (h : Effect i s t) (hs : s.sp.toNat ≤ 16) : t.sp.toNat ≤ 16 := by
  cases i with
  | ret x =>
    obtain ⟨k, hk, rfl⟩ := h
    have hsp : (s.sp - 1).toNat = k.val := sp_sub_one hk
    exact hsp.trans_le k.isLt.le
  | call nnn =>
    obtain ⟨k, hk, rfl⟩ := h
    have hsp : (s.sp + 1).toNat = s.sp.toNat + 1 := sp_add_one (hk.trans_lt k.isLt)
    exact (hsp.trans (congrArg (· + 1) hk)).trans_le k.isLt
  | _ => rw [(h.frame.stack_eq rfl).1]; exact hs

/-- Only `CALL` writes an entry, and what it writes is the advanced `PC`. -/
theorem Effect.stack_le (h : Effect i s t) {b : Nat} (hpc : s.pc.toNat ≤ b) (hs : ∀ k : Fin 16, s.stack[k].toNat ≤ b)
    (k : Fin 16) : t.stack[k].toNat ≤ b := by
  cases i with
  | call nnn =>
    obtain ⟨j, -, rfl⟩ := h
    have hset : (s.stack.set j s.pc)[k] = if j.val = k.val then s.pc else s.stack[k] := Vector.getElem_set ..
    rw [hset]
    split
    · exact hpc
    · exact hs k
  | ret x => obtain ⟨j, -, rfl⟩ := h; exact hs k
  | _ => rw [(h.frame.stack_eq rfl).2]; exact hs k

/-- The handler of a running engine, whose `PC` is still within memory after the advance, keeps the invariant. -/
theorem exec_keeps_inv (hrun : s.running) (hpc : s.pc.toNat ≤ 0x1000) (hs : s.Inv) (h : exec i s = .next t) :
    t.Inv := by
  obtain ⟨hmem, hsp, -, hstack, hrep⟩ := hs
  obtain ⟨hfault, hwait⟩ := hrun
  obtain ⟨c, rfl, -⟩ | he := exec_next_cases h
  · exact ⟨hmem, hsp, by simp [hwait], hstack, hrep⟩
  · have hvalid : t.faultValid = false := State.faultValid_eq_false.2 ((he.frame.fault_eq rfl).trans hfault)
    refine ⟨he.mem_wf hmem, he.sp_le hsp, by simp [hvalid], he.stack_le hpc hstack, ?_⟩
    rwa [he.frame.reports_eq]

theorem State.tick_inv (h : s.Inv) : s.tick.Inv := h

/-- Settles O24, by what a step can do: nothing, a fetch fault of an engine that is not blocked, the report of a word
that decodes to none, or a handler. -/
theorem everyStepKeepsTheInvariant : Obligations.EveryStepKeepsTheInvariant := by
  intro s t hs h
  obtain ⟨-, rfl⟩ | ⟨hrun, -, rfl⟩ | ⟨w, -, -, hw, rfl⟩ | ⟨w, i, u, hrun, hw, -, hu, rfl⟩ := step_next_cases h
  · exact hs
  · obtain ⟨hmem, hsp, -, hstack, hrep⟩ := hs
    exact ⟨hmem, hsp, by simp [hrun.2], hstack, hrep⟩
  · obtain ⟨hmem, hsp, hexcl, hstack, hrep⟩ := hs
    exact State.tick_inv ⟨hmem, hsp, hexcl, hstack, List.forall_mem_cons.2 ⟨hw, hrep⟩⟩
  · have hpc : s.advance.pc.toNat ≤ 0x1000 := by
      have hle := State.fetchWord_some hw
      rw [State.advance_pc, toNat_add_two]; omega
    have hinv : u.Inv := exec_keeps_inv (s := s.advance) hrun hpc hs hu
    split
    · exact hinv
    · exact State.tick_inv hinv

/-! ### The invariant at reset, under the host's transactions and along runs -/

/-- Settles O23. -/
theorem resetMeetsTheInvariant : Obligations.ResetMeetsTheInvariant := by
  unfold Obligations.ResetMeetsTheInvariant
  decide

/-- The reset state with any canonical memory and any reports of unknown words meet the invariant. -/
theorem inv_reset_with {mem : Memory} {draws : Nat} {reports : List UnknownReport} (hmem : mem.wf = true)
    (hrep : ∀ r ∈ reports, decodeWord r.word = none) :
    State.Inv { State.reset with mem := mem, drawCount := draws, reports := reports } := by
  obtain ⟨-, hsp, hexcl, hstack, -⟩ := resetMeetsTheInvariant
  exact ⟨hmem, hsp, hexcl, hstack, hrep⟩

theorem State.load_inv (bytes : List Byte) (h : s.Inv) : (s.load bytes).1.Inv := by
  obtain ⟨hmem, -, -, -, hrep⟩ := h
  have hclear := Memory.wf_clearFrom Config.progBase hmem
  unfold State.load
  split
  · exact inv_reset_with hclear hrep
  · next hlen =>
    have hfit : Config.progBase + bytes.length ≤ Config.memSize := by simp at hlen ⊢; omega
    exact inv_reset_with (Memory.wf_writeBytes bytes hfit hclear) hrep

theorem State.submitKey_inv (code : Nibble) (pressed : Bool) (h : s.Inv) : (s.submitKey code pressed).Inv := by
  obtain ⟨hmem, hsp, hexcl, hstack, hrep⟩ := h
  unfold State.submitKey
  split
  · split
    · exact ⟨hmem, hsp, by simp, hstack, hrep⟩
    · exact ⟨hmem, hsp, hexcl, hstack, hrep⟩
  · exact ⟨hmem, hsp, hexcl, hstack, hrep⟩

/-- Settles O25. -/
theorem hostTransactionsKeepTheInvariant : Obligations.HostTransactionsKeepTheInvariant := by
  intro s h
  have ⟨_, _, _, _, hrep⟩ := h
  exact ⟨inv_reset_with (mem := []) rfl hrep, fun bytes => State.load_inv bytes h,
    fun code pressed => State.submitKey_inv code pressed h, h⟩

theorem transact_keeps_inv {x : Transaction} (hs : s.Inv) (h : transact x s = .next t) : t.Inv := by
  obtain ⟨hreset, hload, hkey, hack⟩ := hostTransactionsKeepTheInvariant s hs
  cases x with
  | step => exact everyStepKeepsTheInvariant s t hs h
  | coldReset => cases h; exact hreset
  | load bytes => cases h; exact hload bytes
  | submitKey code pressed => cases h; exact hkey code pressed
  | frameAck => cases h; exact hack

/-- What every transaction keeps, every run keeps. -/
theorem runAll_induction {P : State → Prop} (hP : ∀ {x s t}, P s → transact x s = .next t → P t)
    (ts : List Transaction) (hs : P s) (h : runAll ts s = .next t) : P t := by
  induction ts generalizing s with
  | nil => cases h; exact hs
  | cons x ts ih =>
    rw [runAll] at h
    split at h
    · next u hu => exact ih (hP hs hu) h
    · cases h
    · cases h

theorem State.Reachable.inv (h : s.Reachable) : s.Inv := by
  obtain ⟨ts, hts⟩ := h
  exact runAll_induction transact_keeps_inv ts resetMeetsTheInvariant hts

/-- Settles O28: the invariant holds in every reachable state. -/
theorem reachableStatesMeetTheStatedInvariants : Obligations.ReachableStatesMeetTheStatedInvariants := by
  intro s h
  obtain ⟨-, hsp, hexcl, hstack, -⟩ := h.inv
  exact ⟨hsp, hexcl, hstack⟩

/-! ### Where the model stops (R27, log 9) -/

/-- A handler that does not use `SP` answers a next state. -/
theorem exec_answers_of_no_stack (s : State) (hret : ∀ x, i ≠ .ret x) (hcall : ∀ nnn, i ≠ .call nnn) :
    ∃ t, exec i s = .next t := by
  cases i with
  | ret x => exact absurd rfl (hret x)
  | call nnn => exact absurd rfl (hcall nnn)
  | drw x y n =>
    by_cases hread : SpriteReadable s n
    · by_cases hgrid : SpriteOnGrid s x y n
      · obtain ⟨fb, coll, -, h⟩ := exec_drw_of_ok hread hgrid
        exact ⟨_, h⟩
      · exact ⟨_, exec_drw_of_off hread hgrid⟩
    · exact ⟨_, exec_drw_of_unreadable x y hread⟩
  | skp x =>
    obtain hk | hk := Nat.lt_or_ge 15 (s.reg x).toNat
    · exact ⟨_, exec_skp_of_gt x hk⟩
    · exact ⟨_, exec_skp_of_lt x ⟨_, Nat.lt_succ_of_le hk⟩ rfl⟩
  | sknp x =>
    obtain hk | hk := Nat.lt_or_ge 15 (s.reg x).toNat
    · exact ⟨_, exec_sknp_of_gt x hk⟩
    · exact ⟨_, exec_sknp_of_lt x ⟨_, Nat.lt_succ_of_le hk⟩ rfl⟩
  | ldB | storeRegs | loadRegs =>
    simp only [exec, execLdB, execStoreRegs, execLoadRegs]
    split <;> exact ⟨_, rfl⟩
  | _ => exact ⟨_, rfl⟩

theorem exec_ret_answers (x : Nibble) (hs : s.sp.toNat ≤ 16) : ∃ t, exec (.ret x) s = .next t := by
  obtain h0 | h0 := Nat.eq_zero_or_pos s.sp.toNat
  · exact ⟨_, exec_ret_of_zero x h0⟩
  · exact ⟨_, exec_ret_of_le x ⟨s.sp.toNat - 1, by omega⟩ (by simp only; omega)⟩

theorem exec_call_answers (nnn : BitVec 12) (hs : s.sp.toNat ≤ 16) : ∃ t, exec (.call nnn) s = .next t := by
  obtain hlt | hfull := hs.lt_or_eq
  · exact ⟨_, exec_call_of_lt nnn hlt⟩
  · exact ⟨_, exec_call_of_full nnn hfull⟩

/-- Settles O29. -/
theorem stopsOnlyAtAnIllegalStackPointer : Obligations.StopsOnlyAtAnIllegalStackPointer := by
  refine ⟨fun s x nnn hs => ⟨exec_ret_of_gt x hs, exec_call_of_gt nnn hs⟩, fun i s hs => ?_,
    fun i s => exec_answers_of_no_stack s⟩
  cases i with
  | ret x => exact exec_ret_answers x hs
  | call nnn => exact exec_call_answers nnn hs
  | _ => exact exec_answers_of_no_stack s (by simp) (by simp)

/-! ### The font -/

/-- Settles O2: the 80 bytes of the table, read where an unwritten address reads. -/
theorem fontGlyphsAfterReset : Obligations.FontGlyphsAfterReset := by
  unfold Obligations.FontGlyphsAfterReset
  decide

end Sys2Proof.Machine

/-! PROOFS of the family 20_memory: what a register store leaves in memory, and the fetch that reads it. -/

namespace Sys2Proof.Machine

/-- A register store whose last byte has an address writes `V0` to `Vx` from `I` (43_index_memory.md R204). -/
theorem exec_storeRegs_of_le {s : State} {x : Reg} (h : s.i.toNat + x.val ≤ 0xFFF) :
    exec (.storeRegs x) s = .next { s with mem := s.mem.writeBytes s.i.toNat (s.regsUpTo x) } := by
  have hok : rangeOk s.i (x.val + 1) = true := (rangeOk_iff _ _).2 (.inr (by omega))
  simp only [exec, execStoreRegs, hok, if_true]

/-- The byte at `I + k` of the stored range is `V[k]`, for any memory under the store. -/
theorem byteAt_writeBytes_regsUpTo (m : Memory) (s : State) (base : Nat) {x k : Reg} (h : k ≤ x) :
    (m.writeBytes base (s.regsUpTo x)).byteAt (base + k.val) = s.reg k := by
  have hk : k.val ≤ x.val := h
  have hin : base ≤ base + k.val ∧ base + k.val < base + (s.regsUpTo x).length := by
    rw [State.length_regsUpTo]; omega
  rw [Memory.byteAt_writeBytes, if_pos hin, Nat.add_sub_cancel_left, State.getD_regsUpTo s hk]

/-- Settles O48: a fetch reads the two bytes at `PC` from the one memory the store has written. -/
theorem storedInstructionsAreFetched : Obligations.StoredInstructionsAreFetched := by
  intro x k k' s hfit hadj hk'
  refine ⟨_, exec_storeRegs_of_le hfit, fun u hrun hmem hpc => (fetchesWord_iff _ _).2 ⟨hrun, ?_⟩⟩
  have hkx : k.val + 1 ≤ x.val := hadj.symm.trans_le hk'
  have hhigh : u.mem.byteAt u.pc.toNat = s.reg k := by
    rw [hmem, hpc]; exact byteAt_writeBytes_regsUpTo _ s _ (k.val.le_succ.trans hkx)
  have hlow : u.mem.byteAt (u.pc.toNat + 1) = s.reg k' := by
    rw [hmem, hpc, Nat.add_assoc, ← hadj]; exact byteAt_writeBytes_regsUpTo _ s _ hk'
  rw [State.fetchWord_of_le (by omega), hhigh, hlow]

end Sys2Proof.Machine

/-! PROOFS of the family 30_encoding: the fields of a word bit by bit, the encoder and the decoder by cases as inverses,
the unknown words, and the four-tier lookup as the choice of the tightest mask. -/

namespace Sys2Proof

/-! ### Words and their fields -/

@[simp] theorem fieldOp_encRR (op x y n : Nibble) : fieldOp (encRR op x y n) = op := fieldOp_wordOfNibbles op x y n

@[simp] theorem fieldY_encRI (op x : Nibble) (kk : Byte) : fieldY (encRI op x kk) = ⟨kk.toNat / 16, by omega⟩ := by
  rw [encRI_nibbles, fieldY_wordOfNibbles]

@[simp] theorem fieldN_encRI (op x : Nibble) (kk : Byte) : fieldN (encRI op x kk) = ⟨kk.toNat % 16, by omega⟩ := by
  rw [encRI_nibbles, fieldN_wordOfNibbles]

theorem encA_fields (w : Word) : encA (fieldOp w) (fieldNnn w) = w := by
  apply BitVec.eq_of_toNat_eq
  rw [toNat_encA, fieldOp_val, fieldNnn_toNat]
  omega

theorem encRI_fields (w : Word) : encRI (fieldOp w) (fieldX w) (fieldKk w) = w := by
  apply BitVec.eq_of_toNat_eq
  rw [toNat_encRI, fieldOp_val, fieldX_val, fieldKk_toNat]
  omega

/-- The low byte of a word is `k` exactly when `y` and `n` are the two nibbles of `k`. -/
theorem toNat_mod_256_eq_iff (w : Word) {k : Nat} (hk : k < 256) :
    w.toNat % 256 = k ↔ fieldY w = ⟨k / 16, by omega⟩ ∧ fieldN w = ⟨k % 16, by omega⟩ := by
  simp only [Fin.ext_iff, fieldY_val, fieldN_val]
  omega

theorem toNat_mod_16_eq_iff (w : Word) {k : Nat} (hk : k < 16) : w.toNat % 16 = k ↔ fieldN w = ⟨k, hk⟩ := by
  rw [Fin.ext_iff, fieldN_val]

theorem toNat_lowByte_fieldNnn (w : Word) : (lowByte (fieldNnn w)).toNat = w.toNat % 256 := by
  simp only [lowByte, BitVec.extractLsb'_toNat, fieldNnn_toNat, Nat.shiftRight_zero]
  omega

/-! ### Samples and fields -/

/-- Settles O9, by running the decoder. -/
theorem sampleWordsDecode : Obligations.SampleWordsDecode := by
  unfold Obligations.SampleWordsDecode
  decide

theorem testBit_val_nibble (w : Word) (start : Nat) {k : Nat} (hk : k < 4) :
    (w.extractLsb' start 4).toFin.val.testBit k = w.getLsbD (start + k) := by
  rw [BitVec.val_toFin, BitVec.testBit_toNat, BitVec.getLsbD_extractLsb', decide_eq_true hk, Bool.true_and]

theorem getLsbD_lowBits (w : Word) (len : Nat) {k : Nat} (hk : k < len) :
    (w.extractLsb' 0 len).getLsbD k = w.getLsbD k := by
  rw [BitVec.getLsbD_extractLsb', decide_eq_true hk, Bool.true_and, Nat.zero_add]

/-- Settles O10: a field is an `extractLsb'`, whose bit `k` is the bit `start + k` of the word. -/
theorem decoderExtractsTheFields : Obligations.DecoderExtractsTheFields := fun w k =>
  ⟨testBit_val_nibble w 12, testBit_val_nibble w 8, testBit_val_nibble w 4,
    fun hk => (testBit_val_nibble w 0 hk).trans (by rw [Nat.zero_add]), getLsbD_lowBits w 8, getLsbD_lowBits w 12⟩

/-! ### Well-formed terms (R98) -/

/-- `SYS` keeps the words that neither `CLS` nor `RET` takes. -/
theorem wellFormed_sys_iff (w : Word) : (Instr.sys (fieldNnn w)).wellFormed = true ↔
    ¬(fieldY w = 14 ∧ fieldN w = 0) ∧ ¬(fieldY w = 14 ∧ fieldN w = 14) := by
  have hbyte : ∀ k : Byte, lowByte (fieldNnn w) ≠ k ↔ w.toNat % 256 ≠ k.toNat := fun k => by
    rw [Ne, ← BitVec.toNat_inj, toNat_lowByte_fieldNnn]
  simp [Instr.wellFormed, hbyte, toNat_mod_256_eq_iff]

/-- `LD Vx, Vy` keeps the words that no arithmetic key takes. -/
theorem wellFormed_ldReg_iff (x y n : Nibble) :
    (Instr.ldReg x y n).wellFormed = true ↔ arithInstr x y n = .ldReg x y n := by
  fin_cases n <;> simp [Instr.wellFormed, ldRegNibbles, arithInstr]

/-! ### Decode after encode -/

theorem decodeByNibbles_encode {i : Instr} (h : i.wellFormed = true) : decodeByNibbles (encode i) = some i := by
  cases i with
  | sys nnn =>
    rw [← fieldNnn_encA 0 nnn, wellFormed_sys_iff] at h
    simp [encode, decodeByNibbles, h]
  | ldReg x y n => simp [encode, decodeByNibbles, (wellFormed_ldReg_iff x y n).1 h]
  | orReg | andReg | xorReg | addReg | subReg | shr | subn | shl => simp [encode, decodeByNibbles, arithInstr]
  | ldVxDt | ldKey | ldDt | ldSt | addI | ldF | ldB | storeRegs | loadRegs =>
    simp [encode, decodeByNibbles, miscInstr]
  | _ => simp [encode, decodeByNibbles]

theorem decodeWord_encode {i : Instr} (h : i.wellFormed = true) : decodeWord (encode i) = some i := by
  rw [decodeWord_eq, decodeByNibbles_encode h]

theorem decode_bytesOfWord {w : Word} {i : Instr} (h : decodeWord w = some i) (rest : List Byte) :
    decode (bytesOfWord w ++ rest) = .ok (i, rest) := by
  simp [bytesOfWord, decode, h]

/-- Settles O11, by cases on the instruction; the bytes of a word make the word again. -/
theorem decodeOfEncodeIsTheInstruction : Obligations.DecodeOfEncodeIsTheInstruction := fun _ h =>
  ⟨decodeWord_encode h, decode_bytesOfWord (decodeWord_encode h)⟩

/-! ### Encode after decode -/

/-- Each of the sixteen `8xyn` words. -/
theorem encode_arithInstr (x y n : Nibble) :
    encode (arithInstr x y n) = wordOfNibbles 8 x y n ∧ (arithInstr x y n).wellFormed = true := by
  fin_cases n <;> exact ⟨rfl, rfl⟩

theorem encode_of_miscInstr {x y n : Nibble} {i : Instr} (h : miscInstr x y n = some i) :
    encode i = wordOfNibbles 15 x y n ∧ i.wellFormed = true := by
  unfold miscInstr at h
  split_ifs at h with h7 hA <;> obtain rfl := Option.some.inj h
  · subst h7; exact ⟨rfl, rfl⟩
  · subst hA; exact ⟨rfl, rfl⟩
  all_goals
    obtain ⟨rfl, rfl⟩ := ‹y = _ ∧ n = _›
    exact ⟨encRI_nibbles 15 x _, rfl⟩

theorem encA_of_fieldOp {w : Word} {op : Nibble} (h : (fieldOp w).val = op.val) : encA op (fieldNnn w) = w :=
  Fin.ext h ▸ encA_fields w

theorem encRI_of_fieldOp {w : Word} {op : Nibble} (h : (fieldOp w).val = op.val) :
    encRI op (fieldX w) (fieldKk w) = w :=
  Fin.ext h ▸ encRI_fields w

theorem encRR_of_fieldOp {w : Word} {op : Nibble} (h : (fieldOp w).val = op.val) :
    encRR op (fieldX w) (fieldY w) (fieldN w) = w :=
  Fin.ext h ▸ wordOfNibbles_fields w

/-- A word whose two low nibbles are those of the function byte `kk`. -/
theorem encRI_of_nibbles {w : Word} {op : Nibble} (h : (fieldOp w).val = op.val) (kk : Byte)
    (hkk : fieldY w = ⟨kk.toNat / 16, by omega⟩ ∧ fieldN w = ⟨kk.toNat % 16, by omega⟩) :
    encRI op (fieldX w) kk = w := by
  rw [encRI_nibbles, ← hkk.1, ← hkk.2]
  exact encRR_of_fieldOp h

theorem encode_of_decodeByNibbles {w : Word} {i : Instr} (h : decodeByNibbles w = some i) :
    encode i = w ∧ i.wellFormed = true := by
  unfold decodeByNibbles at h
  split at h
  case h_1 hop =>
    obtain rfl := Option.some.inj h
    split_ifs with hcls hret
    · exact ⟨encRI_of_nibbles hop 0xE0 hcls, rfl⟩
    · exact ⟨encRI_of_nibbles hop 0xEE hret, rfl⟩
    · exact ⟨encA_of_fieldOp hop, (wellFormed_sys_iff w).2 ⟨hcls, hret⟩⟩
  case h_9 hop =>
    obtain rfl := Option.some.inj h
    obtain ⟨henc, hwf⟩ := encode_arithInstr (fieldX w) (fieldY w) (fieldN w)
    exact ⟨henc.trans (encRR_of_fieldOp hop), hwf⟩
  case h_15 hop =>
    split_ifs at h with hskp hsknp <;> obtain rfl := Option.some.inj h
    · exact ⟨encRI_of_nibbles hop 0x9E hskp, rfl⟩
    · exact ⟨encRI_of_nibbles hop 0xA1 hsknp, rfl⟩
  case h_16 =>
    have hop : (fieldOp w).val = 15 := by
      simp only [imp_false] at *
      omega
    obtain ⟨henc, hwf⟩ := encode_of_miscInstr h
    exact ⟨henc.trans (encRR_of_fieldOp hop), hwf⟩
  case h_2 hop | h_3 hop | h_11 hop | h_12 hop =>
    obtain rfl := Option.some.inj h
    exact ⟨encA_of_fieldOp hop, rfl⟩
  case h_4 hop | h_5 hop | h_7 hop | h_8 hop | h_13 hop =>
    obtain rfl := Option.some.inj h
    exact ⟨encRI_of_fieldOp hop, rfl⟩
  case h_6 hop | h_10 hop | h_14 hop =>
    obtain rfl := Option.some.inj h
    exact ⟨encRR_of_fieldOp hop, rfl⟩

/-- Settles O12, by cases on the nibbles of the word. -/
theorem encodeOfDecodeIsTheWord : Obligations.EncodeOfDecodeIsTheWord := fun w _ h =>
  encode_of_decodeByNibbles ((decodeWord_eq w).symm.trans h)

/-! ### Unknown words -/

theorem ite_some_eq_none_iff {α : Type} {c : Prop} [Decidable c] {a : α} {o : Option α} :
    (if c then some a else o) = none ↔ ¬c ∧ o = none := by
  split_ifs with h <;> simp [h]

theorem miscInstr_eq_none_iff (x y n : Nibble) : miscInstr x y n = none ↔
    (y, n) ∉ ([(1, 5), (1, 8), (1, 14), (2, 9), (3, 3), (5, 5), (6, 5)] : List (Nibble × Nibble)) ∧ n ≠ 7 ∧ n ≠ 10 := by
  rw [and_rotate]
  simp [miscInstr, ite_some_eq_none_iff]

theorem decodeByNibbles_eq_none_iff (w : Word) : decodeByNibbles w = none ↔
    ((fieldOp w).val = 14 ∧ ¬(fieldY w = 9 ∧ fieldN w = 14) ∧ ¬(fieldY w = 10 ∧ fieldN w = 1)) ∨
    ((fieldOp w).val = 15 ∧ miscInstr (fieldX w) (fieldY w) (fieldN w) = none) := by
  unfold decodeByNibbles
  generalize fieldOp w = op
  fin_cases op <;> simp [ite_some_eq_none_iff]

/-- Settles O14: the two rows of nibbles that decode to nothing, as numbers. -/
theorem unknownWordsAreExactlyTheListed : Obligations.UnknownWordsAreExactlyTheListed := by
  intro w
  rw [decodeWord_eq, decodeByNibbles_eq_none_iff, miscInstr_eq_none_iff, fieldOp_val]
  simp [toNat_mod_256_eq_iff, toNat_mod_16_eq_iff]

/-! ### The spellings of R101 -/

theorem decodeWord_of_encode_eq {w : Word} {i : Instr} (h : i.wellFormed = true) (hw : encode i = w) :
    decodeWord w = some i :=
  hw ▸ decodeWord_encode h

/-- Settles O15: each word of R101 is the word of the well-formed term that it should decode to. -/
theorem aliasWordsRunAsTheNamedInstruction : Obligations.AliasWordsRunAsTheNamedInstruction := by
  refine ⟨fun x hx => ?_, fun x y n hn => ?_, fun x y n hn => ?_, fun x y hy => ?_⟩
  · exact ⟨decodeWord_of_encode_eq rfl (encRI_nibbles 0 x 0xE0), beq_false_of_ne hx,
      decodeWord_of_encode_eq rfl (encRI_nibbles 0 x 0xEE), beq_false_of_ne hx⟩
  · exact ⟨decodeWord_encode (i := .seReg x y n) rfl, beq_false_of_ne hn,
      decodeWord_encode (i := .sneReg x y n) rfl, beq_false_of_ne hn⟩
  · have h : (Instr.ldReg x y n).wellFormed = true ∧ (Instr.ldReg x y n).canonical = false := by
      revert hn
      fin_cases n <;> simp [Instr.wellFormed, ldRegNibbles, Instr.canonical]
    exact ⟨decodeWord_encode h.1, h.2⟩
  · exact ⟨decodeWord_encode (i := .ldVxDt x y) rfl, beq_false_of_ne hy,
      decodeWord_encode (i := .ldKey x y) rfl, beq_false_of_ne hy⟩

/-! ### The tightest mask wins (R97) -/

/-- The masks of the four lookups of R94, in their order. -/
def tierMasks : List Word := [0xFFFF, 0xF0FF, 0xF00F, 0xF000]

/-- The word has the key of the row under the row's tier mask. -/
def KeyRow.Matches (r : KeyRow) (w : Word) : Prop := w &&& r.tierMask = r.key

theorem dispatch_eq_findSome (w : Word) : dispatch w = tierMasks.findSome? (fun m => lookupKey (w &&& m)) := by
  have hexact : w &&& 0xFFFF = w := BitVec.and_allOnes
  have hlast : [0xF000].findSome? (fun m => lookupKey (w &&& m)) = lookupKey (w &&& 0xF000) := List.findSome?_singleton
  simp only [dispatch, tierMasks, List.findSome?_cons, hexact, hlast]
  cases lookupKey w
  case some => rfl
  cases lookupKey (w &&& 0xF0FF)
  case some => rfl
  cases lookupKey (w &&& 0xF00F) <;> rfl

theorem tierMasks_descending : tierMasks.Pairwise (fun m m' => m' < m) := by decide

/-- A tier mask that stands nowhere before `m` is not larger than `m`. -/
theorem le_of_notMem_tighter {tighter looser : List Word} {m m' : Word} (htiers : tierMasks = tighter ++ m :: looser)
    (hm' : m' ∈ tierMasks) (hnot : m' ∉ tighter) : m' ≤ m := by
  have hdesc := tierMasks_descending
  rw [htiers] at hdesc hm'
  obtain ⟨-, hfrom, -⟩ := List.pairwise_append.1 hdesc
  obtain rfl | hlooser := List.mem_cons.1 ((List.mem_append.1 hm').resolve_left hnot)
  · exact BitVec.le_refl _
  · exact BitVec.le_of_lt (List.rel_of_pairwise_cons hfrom hlooser)

theorem tierMasks_nested : ∀ m ∈ tierMasks, ∀ m' ∈ tierMasks, m' ≤ m → m &&& m' = m' := by simp [tierMasks]

theorem and_and_of_le {m m' : Word} (hm : m ∈ tierMasks) (hm' : m' ∈ tierMasks) (hle : m' ≤ m) (w : Word) :
    w &&& m &&& m' = w &&& m' := by
  rw [BitVec.and_assoc, tierMasks_nested m hm m' hm' hle]

theorem keyTable_eq_append :
    keyTable = flowRows ++ [sysRow] ++ skipRows ++ aluRows ++ memoryRows ++ deviceRows := rfl

theorem tierMask_mem : ∀ r ∈ keyTable, r.tierMask ∈ tierMasks := by decide

/-- The mask of a row is the smallest tier mask that keeps its key. -/
theorem key_and_eq_key_iff : ∀ r ∈ keyTable, ∀ m ∈ tierMasks, r.key &&& m = r.key ↔ r.tierMask ≤ m := by
  simp [keyTable_eq_append, tierMasks, flowRows, sysRow, skipRows, aluRows, memoryRows, deviceRows]

theorem nodup_keys : (keyTable.map KeyRow.key).Nodup := by decide

theorem eq_of_key_eq {r r' : KeyRow} (h : r ∈ keyTable) (h' : r' ∈ keyTable) (hkey : r.key = r'.key) : r = r' :=
  List.inj_on_of_nodup_map nodup_keys h h' hkey

theorem lookupKey_ne_none {w : Word} {r : KeyRow} (hr : r ∈ keyTable) (hmatch : r.Matches w) :
    lookupKey (w &&& r.tierMask) ≠ none := by
  rw [hmatch, Ne, lookupKey_eq_none_iff, not_not]
  exact List.mem_map_of_mem hr

/-- A row that the lookup under `m` finds may belong to a looser tier, but never to a tighter one, so the word has the
row's key under the row's own mask too. -/
theorem matches_of_lookupKey {w m : Word} {r : KeyRow} (hm : m ∈ tierMasks) (h : lookupKey (w &&& m) = some r) :
    r.Matches w := by
  obtain ⟨hr, hkey⟩ := lookupKey_some h
  have hmr := tierMask_mem r hr
  have hle : r.tierMask ≤ m := (key_and_eq_key_iff r hr m hm).1 (by rw [hkey, BitVec.and_assoc, BitVec.and_self])
  calc w &&& r.tierMask = r.key &&& r.tierMask := by rw [hkey, and_and_of_le hm hmr hle]
    _ = r.key := (key_and_eq_key_iff r hr _ hmr).2 (BitVec.le_refl _)

/-- The row of R97: it matches, and no matching row has a larger mask. -/
def KeyRow.IsTightest (r : KeyRow) (w : Word) : Prop :=
  r ∈ keyTable ∧ r.Matches w ∧ ∀ r' ∈ keyTable, r'.Matches w → r'.tierMask ≤ r.tierMask

theorem KeyRow.IsTightest.unique {r r' : KeyRow} {w : Word} (h : r.IsTightest w) (h' : r'.IsTightest w) : r = r' := by
  obtain ⟨hr, hmatch, hmax⟩ := h
  obtain ⟨hr', hmatch', hmax'⟩ := h'
  have hmask : r.tierMask = r'.tierMask := BitVec.le_antisymm (hmax' r hr hmatch) (hmax r' hr' hmatch')
  have hkey : r.key = r'.key := by rw [← hmatch, ← hmatch', hmask]
  exact eq_of_key_eq hr hr' hkey

theorem isTightest_of_dispatch {w : Word} {r : KeyRow} (h : dispatch w = some r) : r.IsTightest w := by
  rw [dispatch_eq_findSome, List.findSome?_eq_some_iff] at h
  obtain ⟨tighter, m, looser, htiers, hfound, hnone⟩ := h
  have hm : m ∈ tierMasks := by simp [htiers]
  obtain ⟨hr, hkey⟩ := lookupKey_some hfound
  refine ⟨hr, matches_of_lookupKey hm hfound, fun r' hr' hmatch' => ?_⟩
  have hm' := tierMask_mem r' hr'
  have hle : r'.tierMask ≤ m :=
    le_of_notMem_tighter htiers hm' fun hmem => lookupKey_ne_none hr' hmatch' (hnone _ hmem)
  by_contra hlt
  have hge : r.tierMask ≤ r'.tierMask := (BitVec.le_total _ _).resolve_right hlt
  have hkeys : r'.key = r.key := by
    calc r'.key = r.key &&& r'.tierMask := by rw [hkey, and_and_of_le hm hm' hle, hmatch']
      _ = r.key := (key_and_eq_key_iff r hr _ hm').2 hge
  exact hlt (eq_of_key_eq hr' hr hkeys ▸ BitVec.le_refl _)

theorem dispatch_ne_none {w : Word} {r : KeyRow} (hr : r ∈ keyTable) (hmatch : r.Matches w) : dispatch w ≠ none := by
  rw [dispatch_eq_findSome, Ne, List.findSome?_eq_none_iff]
  exact fun h => lookupKey_ne_none hr hmatch (h _ (tierMask_mem r hr))

theorem dispatch_eq_some_iff (w : Word) (r : KeyRow) : dispatch w = some r ↔ r.IsTightest w := by
  refine ⟨isTightest_of_dispatch, fun h => ?_⟩
  have ⟨hr, hmatch, _⟩ := h
  obtain ⟨r', hr'⟩ := Option.ne_none_iff_exists'.1 (dispatch_ne_none hr hmatch)
  rw [hr', (isTightest_of_dispatch hr').unique h]

/-- Settles O13: the row the dispatch answers is the one with the tightest mask, and a row that matches at all is found
by the tier of its own mask. -/
theorem mostSpecificKeyWins : Obligations.MostSpecificKeyWins := by
  refine fun w => ⟨dispatch_eq_some_iff w, fun h r hr hmatch => dispatch_ne_none hr hmatch h, fun h => ?_⟩
  by_contra hsome
  obtain ⟨r, hr⟩ := Option.ne_none_iff_exists'.1 hsome
  obtain ⟨hmem, hmatch, -⟩ := isTightest_of_dispatch hr
  exact h r hmem hmatch

end Sys2Proof

/-! PROOFS of the family 40_engine_step: the host's transactions case by case, the step by what it fetches, and runs
that always answer. -/

namespace Sys2Proof.Machine

variable {i : Instr} {s t u : State} {w : Word}

/-! ### The reset inside `Load` (R129, R130) -/

theorem atReset_reset : AtReset State.reset := by
  simp [AtReset, State.reset, State.reg, Framebuffer.pixel, State.faultValid, State.faultCode, State.faultAddr,
    State.faultWord]

/-- `AtReset` does not look at memory or at the model's own two fields. -/
theorem atReset_with {mem : Memory} {draws : Nat} {reports : List UnknownReport} :
    AtReset { State.reset with mem := mem, drawCount := draws, reports := reports } :=
  atReset_reset

theorem State.load_of_le {bytes : List Byte} (h : bytes.length ≤ 3584) :
    s.load bytes = ({ s.loadReset with mem := s.loadReset.mem.writeBytes 0x200 bytes }, .ok) :=
  if_neg (Nat.not_lt.2 h)

theorem State.load_of_gt {bytes : List Byte} (h : 3584 < bytes.length) :
    s.load bytes = (s.loadReset, .malformedProgram) :=
  if_pos h

theorem State.byteAt_loadReset (s : State) (a : Nat) :
    s.loadReset.mem.byteAt a = if a < 0x200 then s.mem.byteAt a else 0 := by
  have hclear : s.loadReset.mem.byteAt a = if a < 0x200 then s.mem.byteAt a else coldByte a :=
    Memory.byteAt_clearFrom s.mem 0x200 a
  rw [hclear]
  split
  · rfl
  · exact coldByte_above_font a (by omega)

theorem State.atReset_load (s : State) (bytes : List Byte) : AtReset (s.load bytes).1 := by
  obtain hgt | hle := Nat.lt_or_ge 3584 bytes.length
  · rw [State.load_of_gt hgt]; exact atReset_with
  · rw [State.load_of_le hle]; exact atReset_with

/-- Settles O3: the bytes are written over the memory that `LoadReset` leaves. -/
theorem loadPlacesTheProgram : Obligations.LoadPlacesTheProgram := by
  intro s bytes hlen
  have hbyte (a : Nat) : (s.load bytes).1.mem.byteAt a =
      if 0x200 ≤ a ∧ a < 0x200 + bytes.length then bytes.getD (a - 0x200) 0
      else if a < 0x200 then s.mem.byteAt a else 0 := by
    rw [State.load_of_le hlen, ← State.byteAt_loadReset]
    exact Memory.byteAt_writeBytes bytes _ 0x200 a
  refine ⟨by rw [State.load_of_le hlen], s.atReset_load bytes, fun k hk => ?_, fun a ha _ => ?_, fun a ha => ?_⟩
  · rw [hbyte, if_pos (by omega), Nat.add_sub_cancel_left]
  · rw [hbyte, if_neg (by omega), if_neg (by omega)]
  · rw [hbyte, if_neg (by omega), if_pos ha]

/-- Settles O4: above 0x1FF the cleared memory reads as after a cold reset, which is zero there. -/
theorem tooLongLoadLeavesTheResetState : Obligations.TooLongLoadLeavesTheResetState := by
  refine ⟨fun s => ⟨atReset_with, fun a ha _ => ?_, fun a ha => ?_⟩, fun s bytes hlen => ?_⟩
  · rw [State.byteAt_loadReset, if_neg (by omega)]
  · rw [State.byteAt_loadReset, if_pos ha]
  · rw [State.load_of_gt hlen]; exact ⟨rfl, rfl⟩

/-! ### Key events and `FrameAck` (R131, R134, R135) -/

theorem keyByte_toNat (code : Nibble) : (keyByte code).toNat = code.val := by
  rw [keyByte, BitVec.toNat_ofNat]; omega

theorem State.submitKey_press (code : Nibble) (h : s.wait = true) :
    s.submitKey code true = { s.setReg s.waitReg (keyByte code) with wait := false } := by
  simp [State.submitKey, h]

theorem State.submitKey_release (code : Nibble) (h : s.wait = true) : s.submitKey code false = s := by
  simp [State.submitKey, h]

theorem State.submitKey_of_not_wait (code : Nibble) (pressed : Bool) (h : s.wait = false) :
    s.submitKey code pressed = { s with key := s.key.set code pressed } := by
  simp [State.submitKey, h]

theorem frame_press (s : State) (x : Reg) (b : Byte) :
    Frame { regs := [x], wait := true } s { s.setReg x b with wait := false } := by
  refine ⟨fun r hr => (frame_setReg s x b).reg_eq hr, ?_⟩
  simp

/-- Settles O5, one equation of `submitKey` per case. -/
theorem submitKeyActs : Obligations.SubmitKeyActs := by
  intro s code pressed
  refine ⟨fun hwait hp => ?_, fun hwait hp => ?_, fun hwait => ?_⟩
  · have hval : ((s.setReg s.waitReg (keyByte code)).reg s.waitReg).toNat = code.val := by
      rw [State.reg_setReg_same, keyByte_toNat]
    rw [hp, State.submitKey_press code hwait]
    exact ⟨hval, rfl, rfl, frame_press s _ _⟩
  · rw [hp, State.submitKey_release code hwait]
  · rw [State.submitKey_of_not_wait code pressed hwait]
    exact ⟨Vector.getElem_set_self code.isLt,
      fun k hk => Vector.getElem_set_ne code.isLt k.isLt (Fin.val_ne_of_ne hk.symm), rfl⟩

/-- Settles O6. -/
theorem frameAckClearsTheChangedFlag : Obligations.FrameAckClearsTheChangedFlag := fun s =>
  ⟨s.frameAck_fbChanged, rfl⟩

/-- A key event neither reads nor writes `FAULT`. -/
theorem State.submitKey_with_fault (s : State) (f : Option FaultRecord) (code : Nibble) (pressed : Bool) :
    { s with fault := f }.submitKey code pressed = { s.submitKey code pressed with fault := f } := by
  obtain hwait | hwait := Bool.eq_false_or_eq_true s.wait
  · cases pressed
    · rw [State.submitKey_release code hwait, State.submitKey_release (s := { s with fault := f }) code hwait]
    · rw [State.submitKey_press code hwait, State.submitKey_press (s := { s with fault := f }) code hwait]
      rfl
  · rw [State.submitKey_of_not_wait code pressed hwait,
      State.submitKey_of_not_wait (s := { s with fault := f }) code pressed hwait]

/-- Settles O7: both resets leave `AtReset`, where `WAIT` and `FAULT` are clear. -/
theorem hostActsWhateverTheFault : Obligations.HostActsWhateverTheFault := by
  refine ⟨fun s f code pressed => ⟨s.submitKey_with_fault f code pressed, rfl⟩, fun s bytes => ?_⟩
  obtain ⟨-, -, -, -, -, -, -, -, hwait, -, hvalid, -⟩ := s.atReset_load bytes
  exact ⟨hwait, hvalid, rfl, rfl⟩

/-! ### The step by what it fetches (R123 to R125) -/

theorem FetchesWord.running (h : FetchesWord s w) : s.running := h.1

theorem FetchesWord.fetchWord (h : FetchesWord s w) : s.fetchWord = some w := ((fetchesWord_iff s w).1 h).2

theorem exists_fetchesWord (hrun : s.running) (hpc : s.pc.toNat ≤ 0xFFE) : ∃ w, FetchesWord s w :=
  ⟨_, (fetchesWord_iff s _).2 ⟨hrun, State.fetchWord_of_le hpc⟩⟩

theorem step_of_pc_gt (hrun : s.running) (hpc : 0xFFE < s.pc.toNat) : step s = .next s.raiseFetch := by
  rw [step_of_running hrun, State.fetchWord_of_gt hpc]

theorem step_of_unknown (hw : FetchesWord s w) (hi : decodeWord w = none) :
    step s = .next (s.advance.report s.pc w).tick := by
  simp only [step_of_running hw.running, hw.fetchWord, hi]

theorem step_of_known (hw : FetchesWord s w) (hi : decodeWord w = some i) :
    step s = finishStep (exec i s.advance) := by
  simp only [step_of_running hw.running, hw.fetchWord, hi]

theorem step_of_exec (hw : FetchesWord s w) (hi : decodeWord w = some i) (hu : exec i s.advance = .next u) :
    step s = .next (if u.faultValid then u else u.tick) := by
  rw [step_of_known hw hi, hu]; rfl

theorem not_running_of_wait_or_fault (h : s.wait = true ∨ s.faultValid = true) : ¬s.running := by
  rintro ⟨hfault, hwait⟩
  obtain h | h := h
  · rw [hwait] at h; cases h
  · rw [State.faultValid_eq_false.2 hfault] at h; cases h

/-- The tick of one timer, as R127 writes it. -/
theorem tickByte_eq (b : Byte) : tickByte b = if b = 0 then b else b - 1 := by
  unfold tickByte
  split
  · next h => exact h.symm
  · rfl

theorem State.tick_eq (s : State) : s.tick =
    { s with dt := if s.dt = 0 then s.dt else s.dt - 1, st := if s.st = 0 then s.st else s.st - 1 } := by
  rw [← tickByte_eq, ← tickByte_eq]; rfl

/-- Settles O16, one equation of `step` per branch. -/
theorem stepRunsTheDecodedInstruction : Obligations.StepRunsTheDecodedInstruction := by
  refine fun s => ⟨fun h => step_of_not_running (not_running_of_wait_or_fault (.inr h)),
    fun h => step_of_not_running (not_running_of_wait_or_fault (.inl h)), step_of_pc_gt,
    fun w hw => ⟨fun i u hi hu => ⟨fun hf => ?_, fun hf => ?_⟩, fun i r hi hr => ?_, fun hi => ?_⟩⟩
  · rw [step_of_exec hw hi hu, if_pos hf]
  · rw [step_of_exec hw hi hu, if_neg (by simp [hf]), State.tick_eq]
  · have hr' : exec i s.advance = .fault r := hr
    rw [step_of_known hw hi, hr']; rfl
  · rw [step_of_unknown hw hi, State.tick_eq]; rfl

theorem frame_raiseFetch (s : State) : Frame { fault := true } s s.raiseFetch := by simp [Frame, State.reg]

/-- Settles O17: the tick leaves `PC` where the handler put it. -/
theorem fetchFaultsAboveFFEAndAdvancesBelow : Obligations.FetchFaultsAboveFFEAndAdvancesBelow := by
  refine ⟨fun s hrun hpc => ⟨_, step_of_pc_gt hrun hpc, rfl, rfl, rfl, rfl, frame_raiseFetch s⟩,
    fun s hrun hpc => ?_⟩
  obtain ⟨w, hw⟩ := exists_fetchesWord hrun hpc
  exact ⟨w, hw, fun hi => ⟨_, step_of_unknown hw hi, toNat_add_two s.pc⟩,
    fun i u hi hu => ⟨_, step_of_exec hw hi hu, pc_ite_tick _⟩⟩

/-- Settles O19. -/
theorem unknownWordIsReportedAndSkipped : Obligations.UnknownWordIsReportedAndSkipped := fun s _ hw hi =>
  ⟨_, step_of_unknown hw hi, rfl, toNat_add_two s.pc, tickByte_toNat s.dt, tickByte_toNat s.st, rfl⟩

/-! ### Steps without effect (R124) -/

/-- A transaction that leaves a state as it was may be repeated at will. -/
theorem runAll_replicate_of_fixed {x : Transaction} (h : transact x s = .next s) (n : Nat) :
    runAll (List.replicate n x) s = .next s := by
  induction n with
  | zero => rfl
  | succ n ih => rw [List.replicate_succ, runAll, h]; exact ih

/-- Settles O18. -/
theorem stepsAreNoOpsWhileBlockedOrHalted : Obligations.StepsAreNoOpsWhileBlockedOrHalted := fun _ n h =>
  have hstep := step_of_not_running (not_running_of_wait_or_fault h)
  ⟨hstep, runAll_replicate_of_fixed (x := .step) hstep n⟩

/-! ### Precise faults (R126, R262) -/

/-- A handler's fault entry at `PC = A + 2` records `A` and the word fetched there. -/
theorem raise_advance (s : State) (c : FaultCause) (hi : decodeWord w = some i) :
    s.advance.raise c i = { s with pc := s.pc + 2, fault := some ⟨c, s.pc, w⟩ } := by
  obtain ⟨henc, -⟩ := encodeOfDecodeIsTheWord w i hi
  have hpc : s.pc + 2 - 2 = s.pc := BitVec.add_sub_cancel _ _
  simp only [State.raise, State.enterFault, State.advance, hpc, henc]

/-- Settles O20: a handler that leaves `FAULT` alone leaves it clear, for the engine was running; any other is one
fault entry. -/
theorem faultsArePrecise : Obligations.FaultsArePrecise := by
  refine ⟨fun s w i u hw hi hu hf => ⟨?_, ?_⟩, fun s => step_of_pc_gt⟩
  · rw [step_of_exec hw hi hu, if_pos hf]
  · obtain hsame | ⟨c, rfl⟩ := exec_fault_cases hu
    · have hclear : u.faultValid = false := State.faultValid_eq_false.2 (hsame.trans hw.running.1)
      rw [hclear] at hf; cases hf
    · exact ⟨c, raise_advance s c hi⟩

/-! ### The timers (R127) -/

theorem Frame.dt_eq {c : MayChange} (h : Frame c s t) (hc : c.dt = false) : t.dt = s.dt := by
  obtain ⟨-, -, -, -, -, hdt, -⟩ := h
  exact hdt hc

theorem Frame.st_eq {c : MayChange} (h : Frame c s t) (hc : c.st = false) : t.st = s.st := by
  obtain ⟨-, -, -, -, -, -, hst, -⟩ := h
  exact hst hc

@[simp] theorem State.reg_advance (s : State) (r : Reg) : s.advance.reg r = s.reg r := rfl

theorem Effect.dt_eq (h : Effect i s t) (hi : ∀ x, i ≠ .ldDt x) : t.dt = s.dt := by
  refine h.frame.dt_eq (by_contra fun hne => ?_)
  obtain ⟨x, hx⟩ := dt_writers hne
  exact hi x hx

theorem Effect.st_eq (h : Effect i s t) (hi : ∀ x, i ≠ .ldSt x) : t.st = s.st := by
  refine h.frame.st_eq (by_contra fun hne => ?_)
  obtain ⟨x, hx⟩ := st_writers hne
  exact hi x hx

/-- All a step that fetched `w` can do: one fault entry, a report, or the effect of the decoded instruction; it ticks
unless it faulted. -/
theorem step_fetched_cases (hw : FetchesWord s w) (h : step s = .next t) :
    (∃ i c, decodeWord w = some i ∧ t = s.advance.raise c i) ∨
    (decodeWord w = none ∧ t = (s.advance.report s.pc w).tick) ∨
    (∃ i u, decodeWord w = some i ∧ Effect i s.advance u ∧ u.faultValid = false ∧ t = u.tick) := by
  cases hi : decodeWord w with
  | none =>
    rw [step_of_unknown hw hi] at h
    cases h; exact .inr (.inl ⟨rfl, rfl⟩)
  | some i =>
    rw [step_of_known hw hi, finishStep_next_iff] at h
    obtain ⟨u, hu, rfl⟩ := h
    obtain ⟨c, rfl, -⟩ | he := exec_next_cases hu
    · exact .inl ⟨i, c, rfl, rfl⟩
    · have hvalid : u.faultValid = false :=
        State.faultValid_eq_false.2 ((he.frame.fault_eq rfl).trans hw.running.1)
      exact .inr (.inr ⟨i, u, rfl, he, hvalid, by simp [hvalid]⟩)

/-- What the two timers hold after the tick, and the register that `Fx07` has loaded before it. -/
theorem Effect.tick_timers (he : Effect i s u) :
    (∀ x, i = .ldDt x → u.tick.dt.toNat = (s.reg x).toNat - 1) ∧
    ((∀ x, i ≠ .ldDt x) → u.tick.dt.toNat = s.dt.toNat - 1) ∧
    (∀ x, i = .ldSt x → u.tick.st.toNat = (s.reg x).toNat - 1) ∧
    ((∀ x, i ≠ .ldSt x) → u.tick.st.toNat = s.st.toNat - 1) ∧
    (∀ x y, i = .ldVxDt x y → u.tick.reg x = s.dt) := by
  simp only [State.tick_dt, State.tick_st, tickByte_toNat]
  refine ⟨?_, fun hi => by rw [he.dt_eq hi], ?_, fun hi => by rw [he.st_eq hi], ?_⟩
  · rintro x rfl; obtain rfl := he; rfl
  · rintro x rfl; obtain rfl := he; rfl
  · rintro x y rfl; obtain rfl := he; exact s.reg_setReg_same x s.dt

theorem State.submitKey_timers (s : State) (code : Nibble) (pressed : Bool) :
    (s.submitKey code pressed).dt = s.dt ∧ (s.submitKey code pressed).st = s.st := by
  unfold State.submitKey
  split
  · split <;> exact ⟨rfl, rfl⟩
  · exact ⟨rfl, rfl⟩

/-- Settles O22, by what a step that fetched a word can do; the other steps and the host do not tick. -/
theorem timersTickOncePerExecutedStep : Obligations.TimersTickOncePerExecutedStep := by
  refine ⟨fun s w t hw h => ?_, fun s t hrun h => ?_, fun s t hrun hpc h => ?_, fun s code pressed => ?_⟩
  · obtain ⟨i, c, -, rfl⟩ | ⟨hi, rfl⟩ | ⟨i, u, hi, he, hvalid, rfl⟩ := step_fetched_cases hw h
    · exact ⟨fun _ => ⟨rfl, rfl⟩, fun hf => by cases hf⟩
    · have hvalid : s.faultValid = false := State.faultValid_eq_false.2 hw.running.1
      refine ⟨fun hf => ?_, fun _ => ?_⟩
      · exact absurd (hvalid.symm.trans hf) (by decide)
      · simp [hi, tickByte_toNat]
    · refine ⟨fun hf => ?_, fun _ => ?_⟩
      · exact absurd (hvalid.symm.trans hf) (by decide)
      · simpa [hi] using he.tick_timers
  · rw [step_of_not_running hrun] at h
    cases h; exact ⟨rfl, rfl⟩
  · rw [step_of_pc_gt hrun hpc] at h
    cases h; exact ⟨rfl, rfl⟩
  · obtain ⟨hdt, hst⟩ := s.submitKey_timers code pressed
    exact ⟨hdt, hst, rfl, rfl⟩

/-! ### Every transaction answers (R121, R137) -/

/-- Settles O26: with a legal `SP` every handler answers. -/
theorem stepAlwaysAnswersANextState : Obligations.StepAlwaysAnswersANextState := by
  intro s hsp
  by_cases hrun : s.running
  case neg => exact ⟨s, step_of_not_running hrun⟩
  obtain hpc | hpc := Nat.lt_or_ge 0xFFE s.pc.toNat
  · exact ⟨_, step_of_pc_gt hrun hpc⟩
  · obtain ⟨w, hw⟩ := exists_fetchesWord hrun hpc
    cases hi : decodeWord w with
    | none => exact ⟨_, step_of_unknown hw hi⟩
    | some i =>
      obtain ⟨-, hanswers, -⟩ := stopsOnlyAtAnIllegalStackPointer
      obtain ⟨u, hu⟩ := hanswers i s.advance hsp
      exact ⟨_, step_of_exec hw hi hu⟩

theorem transact_answers (x : Transaction) (h : s.sp.toNat ≤ 16) : ∃ t, transact x s = .next t := by
  cases x with
  | step => exact stepAlwaysAnswersANextState s h
  | coldReset | load | submitKey | frameAck => exact ⟨_, rfl⟩

theorem runAll_answers (ts : List Transaction) (h : s.Inv) : ∃ t, runAll ts s = .next t := by
  induction ts generalizing s with
  | nil => exact ⟨s, rfl⟩
  | cons x ts ih =>
    have ⟨_, hsp, _⟩ := h
    obtain ⟨u, hu⟩ := transact_answers x hsp
    obtain ⟨t, ht⟩ := ih (transact_keeps_inv h hu)
    exact ⟨t, by rw [runAll, hu]; exact ht⟩

/-- Settles O27: the invariant keeps `SP` legal along the run. -/
theorem everyRunFromResetIsAnswered : Obligations.EveryRunFromResetIsAnswered := fun ts =>
  runAll_answers ts resetMeetsTheInvariant

end Sys2Proof.Machine

/-! PROOFS of the family 41_flow: the words of the flow rows, the call stack as `CALL` and `RET` move it, and `PC` after
a jump or a skip. -/

namespace Sys2Proof.Machine

variable {s : State}

/-! ### The call stack (R151, R153, R160) -/

/-- Settles O31: `SP` at 1 to 16 names an entry after the decrement, at 0 the handler raises. -/
theorem retPopsTheReturnAddress : Obligations.RetPopsTheReturnAddress := by
  refine ⟨decodesAs_F0FF 0 14 14 rfl fun x => by simp [decodeByNibbles], fun x s => ⟨fun k hk => ?_, fun h0 => ?_⟩⟩
  · exact ⟨_, exec_ret_of_le x k hk, sp_sub_one hk, rfl, rfl, frame_stack_pc s s.stack (s.sp - 1) s.stack[k]⟩
  · exact entersFault_of_raise (exec_ret_of_zero x h0)

/-- The state of a `CALL` by the number of the entry it writes. -/
theorem exec_call_of_eq (nnn : BitVec 12) (k : Fin 16) (h : s.sp.toNat = k.val) :
    exec (.call nnn) s = .next { s with stack := s.stack.set k s.pc, sp := s.sp + 1, pc := addrOfNnn nnn } := by
  rw [exec_call_of_lt nnn (h.trans_lt k.isLt)]
  simp only [h]

theorem toNat_addrOfNnn (nnn : BitVec 12) : (addrOfNnn nnn).toNat = nnn.toNat :=
  BitVec.toNat_setWidth_of_le (by decide)

/-- Settles O32: `SP` below 16 names the entry that the handler writes, at 16 the handler raises. -/
theorem callPushesTheReturnAddress : Obligations.CallPushesTheReturnAddress := by
  refine ⟨decodesAs_F000 2 rfl fun x y n => by simp [decodeByNibbles], fun nnn s => ⟨fun k hk => ?_, fun hfull => ?_⟩⟩
  · have hsp : (s.sp + 1).toNat = k.val + 1 := (sp_add_one (hk.trans_lt k.isLt)).trans (congrArg (· + 1) hk)
    have hother (j : Fin 16) (hj : j ≠ k) : (s.stack.set k s.pc)[j] = s.stack[j] :=
      Vector.getElem_set_ne k.isLt j.isLt (Fin.val_ne_of_ne hj.symm)
    exact ⟨_, exec_call_of_eq nnn k hk, Vector.getElem_set_self k.isLt, hother, hsp, toNat_addrOfNnn nnn,
      frame_stack_pc s _ _ _⟩
  · exact entersFault_of_raise (exec_call_of_full nnn hfull)

/-- Settles O33: the entry that the call writes is the one that `SP`, one above it, makes the return read. -/
theorem returnResumesAfterTheCall : Obligations.ReturnResumesAfterTheCall := by
  intro nnn x s hlt
  obtain ⟨-, hcall⟩ := callPushesTheReturnAddress
  obtain ⟨-, hret⟩ := retPopsTheReturnAddress
  obtain ⟨hpush, -⟩ := hcall nnn s
  obtain ⟨t, ht, hentry, -, htsp, -⟩ := hpush ⟨s.sp.toNat, hlt⟩ rfl
  refine ⟨t, ht, fun u husp hustack => ?_⟩
  obtain ⟨hpop, -⟩ := hret x u
  obtain ⟨v, hv, hvsp, hvpc, -⟩ := hpop ⟨s.sp.toNat, hlt⟩ (by rw [husp]; exact htsp)
  exact ⟨v, hv, by rw [hvpc, hustack]; exact hentry, BitVec.eq_of_toNat_eq hvsp⟩

/-! ### `SYS` and the jumps (R150, R152, R154) -/

theorem fieldOp_of_and_F000 {w : Word} {op : Nibble} (h : w &&& 0xF000 = wordOfNibbles op 0 0 0) : fieldOp w = op := by
  rw [← wordOfNibbles_fields w, and_F000, wordOfNibbles_inj] at h
  exact h.1

theorem lowByte_fieldNnn_ne {w : Word} {k : Byte} (h : w &&& 0x00FF ≠ wordOfByte k) : lowByte (fieldNnn w) ≠ k := by
  rintro rfl
  refine h (BitVec.eq_of_toNat_eq ?_)
  have hbyte : (lowByte (fieldNnn w)).toNat = w.toNat % 2 ^ 8 := toNat_lowByte_fieldNnn w
  rw [BitVec.toNat_and, wordOfByte, BitVec.toNat_setWidth_of_le (by decide), hbyte]
  exact Nat.and_two_pow_sub_one_eq_mod w.toNat 8

/-- Settles O30: the word is the word of its `SYS` term, which is well formed because neither `CLS` nor `RET` takes it. -/
theorem sysDoesNothing : Obligations.SysDoesNothing := by
  refine ⟨fun w hop hcls hret => ?_, fun nnn s => rfl⟩
  have hwf : (Instr.sys (fieldNnn w)).wellFormed = true := by
    simpa [Instr.wellFormed] using
      And.intro (lowByte_fieldNnn_ne (k := 0xE0) hcls) (lowByte_fieldNnn_ne (k := 0xEE) hret)
  have hword : encode (.sys (fieldNnn w)) = w :=
    encA_of_fieldOp (op := 0) (congrArg Fin.val (fieldOp_of_and_F000 hop))
  exact decodeWord_of_encode_eq hwf hword

/-- The sum of a 12-bit and an 8-bit value does not wrap in 16 bits. -/
theorem toNat_addrOfNnn_add_wordOfByte (nnn : BitVec 12) (b : Byte) :
    (addrOfNnn nnn + wordOfByte b).toNat = nnn.toNat + b.toNat := by
  have hb : (wordOfByte b).toNat = b.toNat := BitVec.toNat_setWidth_of_le (by decide)
  rw [BitVec.toNat_add_of_lt (by rw [toNat_addrOfNnn, hb]; omega), toNat_addrOfNnn, hb]

/-- Settles O34. -/
theorem jumpsSetThePc : Obligations.JumpsSetThePc := by
  refine ⟨decodesAs_F000 1 rfl fun x y n => by simp [decodeByNibbles],
    decodesAs_F000 11 rfl fun x y n => by simp [decodeByNibbles], fun nnn s => ⟨?_, ?_⟩⟩
  · exact ⟨_, rfl, toNat_addrOfNnn nnn, frame_pc s _⟩
  · exact ⟨_, rfl, toNat_addrOfNnn_add_wordOfByte nnn (s.reg 0), frame_pc s _⟩

/-! ### The skips (R155 to R159) -/

theorem State.toNat_pc_skipIf_beq (s : State) (a b : Byte) :
    (s.skipIf (a == b)).pc.toNat = if a = b then (s.pc.toNat + 2) % 65536 else s.pc.toNat := by
  by_cases h : a = b <;> simp [h]

theorem State.toNat_pc_skipIf_bne (s : State) (a b : Byte) :
    (s.skipIf (a != b)).pc.toNat = if a = b then s.pc.toNat else (s.pc.toNat + 2) % 65536 := by
  by_cases h : a = b <;> simp [h]

/-- Settles O35. -/
theorem skipsOnAnImmediate : Obligations.SkipsOnAnImmediate := by
  refine ⟨decodesAs_F000 3 rfl fun x y n => by simp [decodeByNibbles],
    decodesAs_F000 4 rfl fun x y n => by simp [decodeByNibbles], fun x kk s => ⟨?_, ?_⟩⟩
  · exact ⟨_, rfl, s.toNat_pc_skipIf_beq (s.reg x) kk, frame_skipIf s _⟩
  · exact ⟨_, rfl, s.toNat_pc_skipIf_bne (s.reg x) kk, frame_skipIf s _⟩

/-- Settles O36. -/
theorem skipsOnTwoRegisters : Obligations.SkipsOnTwoRegisters := by
  refine ⟨decodesAs_F000 5 rfl fun x y n => by simp [decodeByNibbles],
    decodesAs_F000 9 rfl fun x y n => by simp [decodeByNibbles], fun x y n s => ⟨?_, ?_⟩⟩
  · exact ⟨_, rfl, s.toNat_pc_skipIf_beq (s.reg x) (s.reg y), frame_skipIf s _⟩
  · exact ⟨_, rfl, s.toNat_pc_skipIf_bne (s.reg x) (s.reg y), frame_skipIf s _⟩

end Sys2Proof.Machine

/-! PROOFS of the family 42_alu: the words of the `8xyn` rows, a register write with and without the flag, and what the
flag is. -/

namespace Sys2Proof.Machine

variable {i : Instr} {s : State}

/-! ### The words of the `8xyn` rows (R97, R98) -/

/-- The rows at mask 0xF00F with `op = 8`: the final nibble names the operation. -/
theorem decodesAs_arith (n : Nibble) {key : Word} {build : Reg → Reg → Instr} (hk : key = wordOfNibbles 8 0 0 n)
    (hbuild : ∀ x y, arithInstr x y n = build x y) :
    DecodesAs 0xF00F key (fun w => build (fieldX w) (fieldY w)) :=
  decodesAs_F00F 8 n hk fun x y => by simp [decodeByNibbles, hbuild]

theorem wellFormed_ldReg_of_mem (x y : Reg) {n : Nibble} (h : n.val ∈ [0, 8, 9, 0xA, 0xB, 0xC, 0xD, 0xF]) :
    (Instr.ldReg x y n).wellFormed = true := by
  change ldRegNibbles.contains n = true
  revert n
  decide

/-- `LD Vx, Vy` takes the words of `op = 8` whose final nibble no arithmetic key has. -/
theorem decodeWord_ldReg {w : Word} (hop : w &&& 0xF000 = 0x8000)
    (hn : w.toNat % 16 ∈ [0, 8, 9, 0xA, 0xB, 0xC, 0xD, 0xF]) :
    decodeWord w = some (.ldReg (fieldX w) (fieldY w) (fieldN w)) := by
  rw [← fieldN_val] at hn
  have hop8 : fieldOp w = 8 := fieldOp_of_and_F000 hop
  exact decodeWord_of_encode_eq (wellFormed_ldReg_of_mem _ _ hn)
    (encRR_of_fieldOp (op := 8) (congrArg Fin.val hop8))

/-! ### Handlers that write one register (R171 to R176) -/

/-- A handler that is one register write: `V[x]` holds the byte, and it is all that changes. -/
theorem setReg_writes_only {x : Reg} {b : Byte} (h : exec i s = .next (s.setReg x b)) :
    ∃ t, exec i s = .next t ∧ t.reg x = b ∧ Frame { regs := [x] } s t :=
  ⟨_, h, s.reg_setReg_same x b, frame_setReg s x b⟩

/-- Settles O37. -/
theorem loadsAndAddImmediate : Obligations.LoadsAndAddImmediate := by
  refine ⟨decodesAs_F000 6 rfl fun x y n => by simp [decodeByNibbles],
    decodesAs_F000 7 rfl fun x y n => by simp [decodeByNibbles], fun _ => decodeWord_ldReg,
    fun x kk s => ⟨setReg_writes_only rfl, ?_⟩, fun x y n s => setReg_writes_only rfl⟩
  obtain ⟨t, ht, hreg, hframe⟩ := setReg_writes_only (i := .addImm x kk) (s := s) rfl
  exact ⟨t, ht, by rw [hreg, BitVec.toNat_add], hframe⟩

/-- Settles O38: the word operations of the handlers are bitwise by definition. -/
theorem logicIsBitwiseAndLeavesTheFlag : Obligations.LogicIsBitwiseAndLeavesTheFlag := by
  refine ⟨decodesAs_arith 1 rfl fun _ _ => rfl, decodesAs_arith 2 rfl fun _ _ => rfl,
    decodesAs_arith 3 rfl fun _ _ => rfl, fun x y s => ⟨?_, ?_, ?_⟩⟩
  · obtain ⟨t, ht, hreg, hframe⟩ := setReg_writes_only (i := .orReg x y) (s := s) rfl
    exact ⟨t, ht, hframe, fun k => hreg ▸ BitVec.getLsbD_or⟩
  · obtain ⟨t, ht, hreg, hframe⟩ := setReg_writes_only (i := .andReg x y) (s := s) rfl
    exact ⟨t, ht, hframe, fun k => hreg ▸ BitVec.getLsbD_and⟩
  · obtain ⟨t, ht, hreg, hframe⟩ := setReg_writes_only (i := .xorReg x y) (s := s) rfl
    exact ⟨t, ht, hframe, fun k => hreg ▸ BitVec.getLsbD_xor⟩

/-- Settles O42. -/
theorem randomIsAMaskedFreeByte : Obligations.RandomIsAMaskedFreeByte := by
  refine ⟨decodesAs_F000 12 rfl fun x y n => by simp [decodeByNibbles], fun x kk s => ?_⟩
  have hreg : (s.drawInto x kk).reg x = Config.freeByte s.drawCount &&& kk := by simp [State.reg_drawInto]
  exact ⟨_, rfl, fun k => hreg ▸ BitVec.getLsbD_and, s.drawInto_drawCount x kk, frame_drawInto s x kk⟩

/-! ### Handlers that write a result and then the flag (R183) -/

/-- A handler that writes a result to `V[x]` and then the flag, both read as numbers: for `x = 15` the flag is what
stays. -/
theorem setResultFlag_writes_only {x : Reg} {r : Byte} {f : Bool} {result flag : Nat}
    (h : exec i s = .next (s.setResultFlag .flagLast x r f)) (hr : r.toNat = result) (hf : f.toNat = flag) :
    ∃ t, exec i s = .next t ∧ (x.val ≠ 15 → (t.reg x).toNat = result) ∧ (t.reg 15).toNat = flag ∧
      Frame { regs := [x, 15] } s t := by
  refine ⟨_, h, fun hx => ?_, ?_, frame_setResultFlag s .flagLast x r f⟩
  · rw [s.reg_setResultFlag_ne (Fin.ne_of_val_ne hx), if_pos rfl, hr]
  · have hflag := s.reg_setResultFlag_vf x r f
    rw [show (15 : Reg) = vf from rfl, hflag, flagByte_toNat, hf]

/-- The carry-out without the reference quirk (R177). -/
theorem carryOut_toNat (a b : Byte) : (carryOut false a b).toNat = if 255 < a.toNat + b.toNat then 1 else 0 :=
  Bool.cond_decide _ _ _

theorem notBorrow_toNat (a b : Byte) : (notBorrow a b).toNat = if b.toNat ≤ a.toNat then 1 else 0 :=
  Bool.cond_decide _ _ _

theorem outRight_toNat (a : Byte) : (outRight a).toNat = a.toNat % 2 := by
  rw [outRight, ← BitVec.testBit_toNat, Nat.toNat_testBit, pow_zero, Nat.div_one]

theorem outLeft_toNat (a : Byte) : (outLeft a).toNat = a.toNat / 128 := by
  rw [outLeft, ← BitVec.testBit_toNat, Nat.toNat_testBit]
  omega

theorem toNat_sub_byte (a b : Byte) : (a - b).toNat = (a.toNat + 256 - b.toNat) % 256 := by
  rw [BitVec.toNat_sub]
  omega

/-- Settles O39. -/
theorem addWritesSumAndCarry : Obligations.AddWritesSumAndCarry :=
  ⟨decodesAs_arith 4 rfl fun _ _ => rfl, fun x y s =>
    setResultFlag_writes_only rfl (BitVec.toNat_add _ _) (carryOut_toNat (s.reg x) (s.reg y))⟩

/-- Settles O40. -/
theorem subtractionsWriteDifferenceAndNotBorrow : Obligations.SubtractionsWriteDifferenceAndNotBorrow :=
  ⟨decodesAs_arith 5 rfl fun _ _ => rfl, decodesAs_arith 7 rfl fun _ _ => rfl, fun x y s =>
    ⟨setResultFlag_writes_only rfl (toNat_sub_byte _ _) (notBorrow_toNat (s.reg x) (s.reg y)),
      setResultFlag_writes_only rfl (toNat_sub_byte _ _) (notBorrow_toNat (s.reg y) (s.reg x))⟩⟩

theorem toNat_shiftRight_one (a : Byte) : (a >>> 1).toNat = a.toNat / 2 := by
  rw [BitVec.toNat_ushiftRight, Nat.shiftRight_one]

theorem toNat_shiftLeft_one (a : Byte) : (a <<< 1).toNat = a.toNat * 2 % 256 := by
  rw [BitVec.toNat_shiftLeft, Nat.shiftLeft_eq]

/-- Settles O41: the shifts read `V[x]` alone, the default of `SHIFT_SOURCE`. -/
theorem shiftsWriteResultAndTheBitShiftedOut : Obligations.ShiftsWriteResultAndTheBitShiftedOut :=
  ⟨decodesAs_arith 6 rfl fun _ _ => rfl, decodesAs_arith 14 rfl fun _ _ => rfl, fun x _ s =>
    ⟨setResultFlag_writes_only rfl (toNat_shiftRight_one (s.reg x)) (outRight_toNat (s.reg x)),
      setResultFlag_writes_only rfl (toNat_shiftLeft_one (s.reg x)) (outLeft_toNat (s.reg x))⟩⟩

end Sys2Proof.Machine

/-! PROOFS of the family 43_index_memory: the words of its rows, the address check either way, and what the stores leave
in memory and the load in the registers. -/

namespace Sys2Proof.Machine

variable {s t : State} {x : Reg}

/-! ### The words of the `Fxkk` rows (R98) -/

/-- The rows at mask 0xF0FF with `op = 15`: the low byte names the operation. -/
theorem decodesAs_misc (y n : Nibble) {key : Word} {build : Reg → Instr} (hk : key = wordOfNibbles 15 0 y n)
    (hbuild : ∀ x, miscInstr x y n = some (build x)) : DecodesAs 0xF0FF key (fun w => build (fieldX w)) :=
  decodesAs_F0FF 15 y n hk fun x => by simp [decodeByNibbles, hbuild]

/-! ### The index register (R200 to R202) -/

theorem toNat_wordOfByte (b : Byte) : (wordOfByte b).toNat = b.toNat := BitVec.toNat_setWidth_of_le (by decide)

/-- With `FONT_BASE = 0` a glyph's address is 5 times its number, which no wrap reaches. -/
theorem toNat_glyphAddr (b : Byte) : (glyphAddr b).toNat = 5 * (b.toNat % 16) := by
  have hfit : 5 * (b.toNat % 16) < 2 ^ 16 := by omega
  rw [glyphAddr, fontBase, glyphSize, Nat.zero_add, BitVec.toNat_ofNat, Nat.mod_eq_of_lt hfit]

/-- Settles O43. -/
theorem indexRegisterWrites : Obligations.IndexRegisterWrites := by
  refine ⟨decodesAs_F000 10 rfl fun x y n => by simp [decodeByNibbles], decodesAs_misc 1 14 rfl fun _ => rfl,
    decodesAs_misc 2 9 rfl fun _ => rfl, fun nnn s => ⟨_, rfl, toNat_addrOfNnn nnn, frame_i s _⟩, fun x s => ⟨?_, ?_⟩⟩
  · exact ⟨_, rfl, by rw [BitVec.toNat_add, toNat_wordOfByte], frame_i s _⟩
  · exact ⟨_, rfl, toNat_glyphAddr (s.reg x), frame_i s _⟩

/-! ### The address check (R206) -/

theorem rangeOk_of_le {base : Word} {n : Nat} (h : base.toNat + n ≤ 4096) : rangeOk base n = true :=
  (rangeOk_iff base n).2 (.inr h)

theorem rangeOk_of_gt {base : Word} {n : Nat} (hn : n ≠ 0) (h : 4096 < base.toNat + n) : rangeOk base n = false :=
  Bool.eq_false_iff.2 fun hok => ((rangeOk_iff base n).1 hok).elim hn h.not_ge

theorem exec_ldB_of_le (x : Reg) (h : s.i.toNat ≤ 0xFFD) :
    exec (.ldB x) s = .next { s with mem := s.mem.writeBytes s.i.toNat (bcdDigits (s.reg x)) } :=
  if_pos (rangeOk_of_le (by omega))

theorem exec_ldB_of_gt (x : Reg) (h : 0xFFD < s.i.toNat) :
    exec (.ldB x) s = .next (s.raise .addressOutOfRange (.ldB x)) := by
  rw [exec, execLdB, rangeOk_of_gt (by decide) (by omega)]; rfl

theorem exec_storeRegs_of_gt (h : 0xFFF < s.i.toNat + x.val) :
    exec (.storeRegs x) s = .next (s.raise .addressOutOfRange (.storeRegs x)) := by
  rw [exec, execStoreRegs, rangeOk_of_gt x.val.succ_ne_zero (by omega)]; rfl

theorem exec_loadRegs_of_le (h : s.i.toNat + x.val ≤ 0xFFF) :
    exec (.loadRegs x) s = .next { s with v := s.loadedRegs x } :=
  if_pos (rangeOk_of_le (by omega))

theorem exec_loadRegs_of_gt (h : 0xFFF < s.i.toNat + x.val) :
    exec (.loadRegs x) s = .next (s.raise .addressOutOfRange (.loadRegs x)) := by
  rw [exec, execLoadRegs, rangeOk_of_gt x.val.succ_ne_zero (by omega)]; rfl

/-! ### The decimal digits (R203) -/

/-- The `k`-th byte of a written range. -/
theorem Memory.byteAt_writeBytes_add (m : Memory) (base : Nat) {bs : List Byte} {k : Nat} (hk : k < bs.length) :
    (m.writeBytes base bs).byteAt (base + k) = bs.getD k 0 := by
  rw [Memory.byteAt_writeBytes, if_pos (by omega), Nat.add_sub_cancel_left]

/-- The digits fit their bytes. -/
theorem toNat_getD_bcdDigits (b : Byte) :
    ((bcdDigits b).getD 0 0).toNat = b.toNat / 100 ∧ ((bcdDigits b).getD 1 0).toNat = b.toNat / 10 % 10 ∧
      ((bcdDigits b).getD 2 0).toNat = b.toNat % 10 := by
  refine ⟨?_, ?_, ?_⟩
  all_goals exact BitVec.toNat_ofNat _ _ |>.trans (Nat.mod_eq_of_lt (by omega))

/-- Settles O44: the three digits are those of the register's value, so they give it back. -/
theorem bcdStoresThreeDigits : Obligations.BcdStoresThreeDigits := by
  refine ⟨decodesAs_misc 3 3 rfl fun _ => rfl, fun x s => ⟨fun hfit => ?_, fun hout => ?_⟩⟩
  · obtain ⟨hundreds, tens, units⟩ := toNat_getD_bcdDigits (s.reg x)
    have hbyte {k : Nat} (hk : k < 3) := Memory.byteAt_writeBytes_add s.mem s.i.toNat (bs := bcdDigits (s.reg x)) hk
    rw [← hbyte (by decide)] at hundreds tens units
    refine ⟨_, exec_ldB_of_le x hfit, hundreds, tens, units, ?_, frame_writeBytes s _ (bcdDigits (s.reg x))⟩
    rw [Nat.add_zero] at hundreds
    rw [hundreds, tens, units]
    omega
  · exact entersFault_of_raise (exec_ldB_of_gt x hout)

/-! ### The register ranges (R204, R205) -/

/-- Settles O45. -/
theorem storeRegistersWritesTheRange : Obligations.StoreRegistersWritesTheRange := by
  refine ⟨decodesAs_misc 5 5 rfl fun _ => rfl, fun x s => ⟨fun hfit => ?_, fun hout => ?_⟩⟩
  · have hframe := frame_writeBytes s s.i.toNat (s.regsUpTo x)
    rw [State.length_regsUpTo] at hframe
    exact ⟨_, exec_storeRegs_of_le hfit, fun k hk => byteAt_writeBytes_regsUpTo s.mem s _ hk, hframe⟩
  · exact entersFault_of_raise (exec_storeRegs_of_gt hout)

/-- Settles O46. -/
theorem loadRegistersReadsTheRange : Obligations.LoadRegistersReadsTheRange := by
  refine ⟨decodesAs_misc 6 5 rfl fun _ => rfl, fun x s => ⟨fun hfit => ?_, fun hout => ?_⟩⟩
  · have hreg (k : Reg) (hk : k ≤ x) := (s.reg_loadedRegs x k).trans (if_pos hk)
    exact ⟨_, exec_loadRegs_of_le hfit, hreg, frame_loadedRegs s x⟩
  · exact entersFault_of_raise (exec_loadRegs_of_gt hout)

/-! ### Storing and loading back (R206) -/

theorem Frame.i_eq {c : MayChange} (h : Frame c s t) (hc : c.i = false) : t.i = s.i := by
  obtain ⟨-, -, hi, -⟩ := h
  exact hi hc

/-- Settles O47: the store leaves `I`, so the load reads the bytes that the store wrote. -/
theorem storedRegistersLoadBack : Obligations.StoredRegistersLoadBack := by
  intro x s hfit
  obtain ⟨-, hstore⟩ := storeRegistersWritesTheRange
  obtain ⟨-, hload⟩ := loadRegistersReadsTheRange
  obtain ⟨hstores, -⟩ := hstore x s
  obtain ⟨t, ht, hbytes, hframe⟩ := hstores hfit
  refine ⟨t, ht, fun u hmem hi => ?_⟩
  have hui : u.i = s.i := hi.trans (hframe.i_eq rfl)
  obtain ⟨hloads, -⟩ := hload x u
  obtain ⟨v, hv, hregs, -⟩ := hloads (by rwa [hui])
  refine ⟨v, hv, fun k hk => ?_⟩
  calc v.reg k = u.mem.byteAt (u.i.toNat + k.val) := hregs k hk
    _ = t.mem.byteAt (s.i.toNat + k.val) := by rw [hmem, hui]
    _ = s.reg k := hbytes k hk

end Sys2Proof.Machine

/-! PROOFS of the family 44_display: `SetPixel` and its single wrap, the clear, and what a draw leaves on the screen and
in `VF`. -/

namespace Sys2Proof.Machine

variable {s u : State} {x y : Reg} {n : Nibble}

/-! ### `SetPixel` (R221, R222) -/

/-- `SetPixel` answers exactly where its coordinates reach a pixel; the collision is that the pixel was on. -/
theorem Framebuffer.setPixel_eq_some_iff {fb fb' : Framebuffer} {a b : Int} {coll : Bool} :
    fb.setPixel a b = some (fb', coll) ↔
      ∃ px py, gridCoord a b = some (px, py) ∧ fb.toggle px py = fb' ∧ fb.pixel px py = coll := by
  simp only [Framebuffer.setPixel_eq, Option.map_eq_some_iff, Prod.exists, Prod.mk.injEq]

theorem Framebuffer.pixel_toggle_same (fb : Framebuffer) (px : Fin 64) (py : Fin 32) :
    (fb.toggle px py).pixel px py = !fb.pixel px py := by
  rw [fb.pixel_toggle, if_pos ⟨rfl, rfl⟩]

theorem Framebuffer.toggle_toggle (fb : Framebuffer) (px : Fin 64) (py : Fin 32) :
    (fb.toggle px py).toggle px py = fb := by
  refine Framebuffer.ext_pixel fun qx qy => ?_
  rw [Framebuffer.pixel_toggle, Framebuffer.pixel_toggle_same, Bool.not_not, fb.pixel_toggle]
  by_cases hq : qx = px ∧ qy = py
  · obtain ⟨rfl, rfl⟩ := hq
    rw [if_pos ⟨rfl, rfl⟩]
  · rw [if_neg hq, if_neg hq]

/-- Settles O50: inside the ranges the coordinates reach the one pixel congruent to them, beyond them none. -/
theorem setPixelWrapsOnce : Obligations.SetPixelWrapsOnce := by
  intro fb a b
  constructor
  · rintro ⟨ha, ha', hb, hb'⟩
    have hsome := (gridCoord_isSome_iff a b).2 ⟨⟨ha, ha'⟩, hb, hb'⟩
    obtain ⟨⟨qx, qy⟩, hq⟩ := Option.isSome_iff_exists.1 hsome
    obtain ⟨hx, hy⟩ := gridCoord_some hq
    refine ⟨_, _, Framebuffer.setPixel_eq_some_iff.2 ⟨qx, qy, hq, rfl, rfl⟩, fun px py => ⟨?_, fun hne => ?_⟩⟩
    · rintro ⟨hpx, hpy⟩
      obtain rfl : px = qx := Fin.ext (by omega)
      obtain rfl : py = qy := Fin.ext (by omega)
      exact ⟨fb.pixel_toggle_same px py, rfl⟩
    · rw [fb.pixel_toggle, if_neg]
      rintro ⟨rfl, rfl⟩
      exact hne ⟨hx, hy⟩
  · intro hout
    have hnone : gridCoord a b = none := by
      rw [← Option.not_isSome_iff_eq_none, gridCoord_isSome_iff]
      omega
    rw [Framebuffer.setPixel_eq, hnone]
    rfl

/-- Settles O51: the second toggle undoes the first, and the pixel it meets is the opposite one. -/
theorem setPixelIsItsOwnInverse : Obligations.SetPixelIsItsOwnInverse := by
  intro fb fb' a b coll h
  obtain ⟨px, py, hq, rfl, rfl⟩ := Framebuffer.setPixel_eq_some_iff.1 h
  exact Framebuffer.setPixel_eq_some_iff.2 ⟨px, py, hq, fb.toggle_toggle px py, fb.pixel_toggle_same px py⟩

/-! ### Clear (R223) -/

/-- Settles O49. -/
theorem clsClearsTheScreen : Obligations.ClsClearsTheScreen :=
  ⟨decodesAs_F0FF 0 14 0 rfl fun x => by simp [decodeByNibbles], fun _ s =>
    ⟨s.clearScreen, rfl, Framebuffer.pixel_blank, rfl, frame_clearScreen s⟩⟩

/-! ### Draw (R225) -/

/-- What a sprite on the grid leaves: no pixel is named twice, so each touched pixel is inverted once, and the collision
says whether one of them was on. -/
theorem drawPoints_drawTargets {fb : Framebuffer} {coll : Bool} (hgrid : SpriteOnGrid s x y n)
    (h : s.fb.drawPoints false (s.drawTargets x y n) = some (fb, coll)) :
    (∀ px py, (Touches s x y n px py → fb.pixel px py = !s.fb.pixel px py) ∧
      (¬Touches s x y n px py → fb.pixel px py = s.fb.pixel px py)) ∧
    (coll = true ↔ ∃ px py, Touches s x y n px py ∧ s.fb.pixel px py = true) := by
  obtain ⟨hpixel, hcoll⟩ := Framebuffer.drawPoints_spec (drawTargets_pairwise hgrid) h
  refine ⟨fun px py => ⟨fun ht => ?_, fun ht => ?_⟩, ?_⟩
  · rw [touches_iff hgrid] at ht
    rw [hpixel, decide_eq_true ht, Bool.xor_true]
  · rw [touches_iff hgrid] at ht
    rw [hpixel, decide_eq_false ht, Bool.xor_false]
  · simp only [hcoll, touches_iff hgrid, Bool.false_eq_true, false_or, and_comm]

/-- Settles O52: the two checks decide between the draw and its two faults. -/
theorem drawTogglesTheSpritePixels : Obligations.DrawTogglesTheSpritePixels := by
  refine ⟨decodesAs_F000 13 rfl fun x y n => by simp [decodeByNibbles], fun x y n s =>
    ⟨fun hread hgrid => ?_, fun hread => ?_, fun hread hgrid => ?_⟩⟩
  · obtain ⟨fb, coll, hpoints, hexec⟩ := exec_drw_of_ok hread hgrid
    obtain ⟨hpixels, hcoll⟩ := drawPoints_drawTargets hgrid hpoints
    have hflag : State.reg ({ s with fb := fb, fbChanged := true }.setFlag coll) 15 = flagByte coll :=
      State.reg_setReg_same _ vf _
    refine ⟨_, hexec, hpixels, fun hon => ?_, fun hoff => ?_, rfl, frame_draw s fb coll⟩
    · rw [hflag, hcoll.2 hon]; rfl
    · rw [hflag, Bool.eq_false_iff.2 fun hc => hoff (hcoll.1 hc)]; rfl
  · exact entersFault_of_raise (exec_drw_of_unreadable x y hread)
  · exact entersFault_of_raise (exec_drw_of_off hread hgrid)

/-- Settles O53: a sprite has 8 columns and at most 15 rows, so from these corners it stays within one wrap. -/
theorem drawsNearTheScreenNeverFault : Obligations.DrawsNearTheScreenNeverFault := by
  intro x y n s hn hi hnear
  have hgrid : SpriteOnGrid s x y n := by
    rintro r c ⟨hr, hc, -⟩
    omega
  obtain ⟨-, hdraw⟩ := drawTogglesTheSpritePixels
  obtain ⟨hcompletes, -⟩ := hdraw x y n s
  obtain ⟨t, ht, -, -, -, hchanged, hframe⟩ := hcompletes (.inr hi) hgrid
  exact ⟨t, ht, hframe.fault_eq rfl, hchanged⟩

/-! ### Drawing twice (R226) -/

/-- Two states in which a draw reads the same: its operands, `I` and the sprite's bytes agree. -/
structure SameDraw (s u : State) (x y : Reg) (n : Nibble) : Prop where
  i : u.i = s.i
  regX : u.reg x = s.reg x
  regY : u.reg y = s.reg y
  bytes : ∀ r, r < n.val → u.mem.byteAt (s.i.toNat + r) = s.mem.byteAt (s.i.toNat + r)

theorem SameDraw.spriteBit_iff (h : SameDraw s u x y n) (r c : Nat) : SpriteBit u n r c ↔ SpriteBit s n r c := by
  refine and_congr_right fun hr => ?_
  rw [h.i, h.bytes r hr]

theorem SameDraw.touches_iff (h : SameDraw s u x y n) (px : Fin 64) (py : Fin 32) :
    Touches u x y n px py ↔ Touches s x y n px py := by
  simp only [Touches, h.spriteBit_iff, h.regX, h.regY]

theorem SameDraw.spriteReadable_iff (h : SameDraw s u x y n) : SpriteReadable u n ↔ SpriteReadable s n := by
  rw [SpriteReadable, SpriteReadable, h.i]

theorem SameDraw.spriteOnGrid_iff (h : SameDraw s u x y n) : SpriteOnGrid u x y n ↔ SpriteOnGrid s x y n := by
  simp only [SpriteOnGrid, h.spriteBit_iff, h.regX, h.regY]

/-- Settles O54: both draws invert the same pixels, so the second meets each of them inverted and restores it. -/
theorem drawingTwiceRestoresTheScreen : Obligations.DrawingTwiceRestoresTheScreen := by
  intro x y n s hread hgrid
  obtain ⟨-, hdraw⟩ := drawTogglesTheSpritePixels
  obtain ⟨hfirst, -⟩ := hdraw x y n s
  obtain ⟨t, ht, htPixels, -⟩ := hfirst hread hgrid
  refine ⟨t, ht, fun u hfb hi hx hy hbytes => ?_⟩
  have hsame : SameDraw s u x y n := ⟨hi, hx, hy, hbytes⟩
  obtain ⟨hsecond, -⟩ := hdraw x y n u
  obtain ⟨v, hv, hvPixels, hcollide, hclear, -⟩ :=
    hsecond (hsame.spriteReadable_iff.2 hread) (hsame.spriteOnGrid_iff.2 hgrid)
  simp only [hsame.touches_iff, hfb] at hvPixels hcollide hclear
  have hmeets (px py) : Touches s x y n px py ∧ t.fb.pixel px py = true ↔
      Touches s x y n px py ∧ s.fb.pixel px py = false :=
    and_congr_right fun htouch => by rw [(htPixels px py).1 htouch, Bool.not_eq_true']
  simp only [hmeets] at hcollide hclear
  refine ⟨v, hv, Framebuffer.ext_pixel fun px py => ?_, hcollide, hclear⟩
  obtain ⟨htTouched, htOther⟩ := htPixels px py
  obtain ⟨hvTouched, hvOther⟩ := hvPixels px py
  by_cases htouch : Touches s x y n px py
  · rw [hvTouched htouch, htTouched htouch, Bool.not_not]
  · rw [hvOther htouch, htOther htouch]

end Sys2Proof.Machine

/-! PROOFS of the family 45_keypad_timers: the words of its rows, the skips that read the latch, the timer instructions
within a step, and the key-wait from its own step to the press that ends it. -/

namespace Sys2Proof.Machine

variable {i : Instr} {s t u : State} {w : Word}

/-! ### The words of the `Fxyn` rows that ignore `y` (R97, R101) -/

/-- The rows at mask 0xF00F with `op = 15`: the final nibble names the operation. -/
theorem decodesAs_misc_anyY (n : Nibble) {key : Word} {build : Reg → Nibble → Instr}
    (hk : key = wordOfNibbles 15 0 0 n) (hbuild : ∀ x y, miscInstr x y n = some (build x y)) :
    DecodesAs 0xF00F key (fun w => build (fieldX w) (fieldY w)) :=
  decodesAs_F00F 15 n hk fun x y => by simp [decodeByNibbles, hbuild]

/-! ### The skips that read the latch (R240, R241, R267) -/

theorem State.toNat_pc_skipIf (s : State) (b : Bool) :
    (s.skipIf b).pc.toNat = if b = true then (s.pc.toNat + 2) % 65536 else s.pc.toNat := by
  cases b
  · rfl
  · exact toNat_add_two s.pc

theorem State.toNat_pc_skipIf_not (s : State) (b : Bool) :
    (s.skipIf (!b)).pc.toNat = if b = true then s.pc.toNat else (s.pc.toNat + 2) % 65536 := by
  cases b
  · exact toNat_add_two s.pc
  · rfl

/-- Settles O55: a value up to 15 names a latch entry, a greater one none, and then both handlers raise. -/
theorem keySkipsReadTheLatch : Obligations.KeySkipsReadTheLatch := by
  refine ⟨decodesAs_F0FF 14 9 14 rfl fun x => by simp [decodeByNibbles],
    decodesAs_F0FF 14 10 1 rfl fun x => by simp [decodeByNibbles],
    fun x s => ⟨fun k hk => ⟨?_, ?_⟩, fun hout => ⟨?_, ?_⟩⟩⟩
  · exact ⟨_, exec_skp_of_lt x k hk, s.toNat_pc_skipIf s.key[k], frame_skipIf s _⟩
  · exact ⟨_, exec_sknp_of_lt x k hk, s.toNat_pc_skipIf_not s.key[k], frame_skipIf s _⟩
  · exact entersFault_of_raise (exec_skp_of_gt x hout)
  · exact entersFault_of_raise (exec_sknp_of_gt x hout)

/-! ### The timer instructions (R242, R244, R245) -/

/-- A handler that leaves `FAULT` alone leaves it clear, so its step ends with the tick. -/
theorem step_of_exec_of_fault_eq (hw : FetchesWord s w) (hi : decodeWord w = some i)
    (hu : exec i s.advance = .next u) (hf : u.fault = s.fault) : step s = .next u.tick := by
  have hvalid : u.faultValid = false := State.faultValid_eq_false.2 (hf.trans hw.running.1)
  rw [step_of_exec hw hi hu, hvalid]; rfl

/-- Settles O56: the handlers are single writes, and the tick of the same step acts on what they leave. -/
theorem timerInstructionsMoveTheTimers : Obligations.TimerInstructionsMoveTheTimers := by
  refine ⟨decodesAs_misc_anyY 7 rfl fun _ _ => rfl, decodesAs_misc 1 5 rfl fun _ => rfl,
    decodesAs_misc 1 8 rfl fun _ => rfl,
    fun x y s => ⟨setReg_writes_only rfl, ⟨_, rfl, rfl, frame_dt s _⟩, ⟨_, rfl, rfl, frame_st s _⟩⟩,
    fun s w hw => ⟨fun x y hi => ?_, fun x hi => ?_, fun x hi => ?_⟩⟩
  · have hread : (s.advance.setReg x s.dt).tick.reg x = s.dt := s.advance.reg_setReg_same x s.dt
    refine ⟨(s.advance.setReg x s.dt).tick, step_of_exec_of_fault_eq hw hi rfl rfl, hread, ?_⟩
    rw [hread]
    exact tickByte_toNat s.dt
  · exact ⟨_, step_of_exec_of_fault_eq hw hi rfl rfl, tickByte_toNat (s.reg x)⟩
  · exact ⟨_, step_of_exec_of_fault_eq hw hi rfl rfl, tickByte_toNat (s.reg x)⟩

/-! ### The key-wait (R243) -/

/-- The state of the handler of `LD Vx, K`. -/
def State.awaitKey (s : State) (x : Reg) : State := { s with wait := true, waitReg := x }

theorem exec_ldKey (s : State) (x : Reg) (y : Nibble) : exec (.ldKey x y) s = .next (s.awaitKey x) := rfl

theorem step_of_ldKey {x : Reg} {y : Nibble} (hw : FetchesWord s w) (hi : decodeWord w = some (.ldKey x y)) :
    step s = .next (s.advance.awaitKey x).tick :=
  step_of_exec_of_fault_eq hw hi (exec_ldKey s.advance x y) rfl

/-- A press ends the wait of an engine that is not halted: it runs again, with the code in `V[WAIT_REG]`. -/
theorem State.submitKey_press_resumes (hwait : t.wait = true) (hfault : t.fault = none) (code : Nibble) :
    ((t.submitKey code true).reg t.waitReg).toNat = code.val ∧ (t.submitKey code true).running ∧
      Frame { regs := [t.waitReg], wait := true } t (t.submitKey code true) := by
  obtain ⟨hpress, -⟩ := submitKeyActs t code true
  obtain ⟨hcode, hclear, -, hframe⟩ := hpress hwait rfl
  exact ⟨hcode, ⟨(hframe.fault_eq rfl).trans hfault, hclear⟩, hframe⟩

/-- Settles O57: the step ends blocked and not halted; in such a state steps and releases do nothing, and a press
resumes. -/
theorem keyWaitEndToEnd : Obligations.KeyWaitEndToEnd := by
  refine ⟨decodesAs_misc_anyY 10 rfl fun _ _ => rfl,
    fun x y s => ⟨_, exec_ldKey s x y, rfl, rfl, frame_wait s true x⟩, fun s w x y hw hi => ?_⟩
  have hwait : (s.advance.awaitKey x).tick.wait = true := rfl
  have hfault : (s.advance.awaitKey x).tick.fault = none := hw.running.1
  refine ⟨_, step_of_ldKey hw hi, hwait, rfl, rfl, tickByte_toNat s.dt, tickByte_toNat s.st, rfl, fun n => ?_,
    fun code => State.submitKey_release code hwait, State.submitKey_press_resumes hwait hfault⟩
  obtain ⟨-, hruns⟩ := stepsAreNoOpsWhileBlockedOrHalted _ n (.inl hwait)
  exact hruns

end Sys2Proof.Machine

/-! PROOFS of the family 60_exceptions: what can change in a halted machine before a reset, and the condition of each
fault code. -/

namespace Sys2Proof.Machine

variable {i : Instr} {s t : State} {w : Word} {c : FaultCause}

/-! ### The halted machine (R272, R279) -/

/-- `s` with all that a step or the host, short of a reset, can write while the machine is halted (R131, R134). -/
def State.hostWrite (s : State) (v : Vector Byte 16) (key : Vector Bool 16) (wait fbChanged : Bool) : State :=
  { s with v := v, key := key, wait := wait, fbChanged := fbChanged }

theorem State.submitKey_eq_hostWrite (s : State) (code : Nibble) (pressed : Bool) :
    ∃ v key wait, s.submitKey code pressed = s.hostWrite v key wait s.fbChanged := by
  obtain hwait | hwait := Bool.eq_false_or_eq_true s.wait
  · cases pressed
    · exact ⟨_, _, _, State.submitKey_release code hwait⟩
    · exact ⟨_, _, _, State.submitKey_press code hwait⟩
  · exact ⟨_, _, _, State.submitKey_of_not_wait code pressed hwait⟩

theorem transact_of_halted {x : Transaction} (h : s.faultValid = true) (hreset : x ≠ .coldReset)
    (hload : ∀ bytes, x ≠ .load bytes) :
    ∃ v key wait fbChanged, transact x s = .next (s.hostWrite v key wait fbChanged) := by
  cases x with
  | step => exact ⟨s.v, s.key, s.wait, s.fbChanged, step_of_not_running (not_running_of_wait_or_fault (.inr h))⟩
  | coldReset => exact absurd rfl hreset
  | load bytes => exact absurd rfl (hload bytes)
  | submitKey code pressed =>
    obtain ⟨v, key, wait, heq⟩ := s.submitKey_eq_hostWrite code pressed
    exact ⟨v, key, wait, s.fbChanged, congrArg Host.Outcome.next heq⟩
  | frameAck => exact ⟨s.v, s.key, s.wait, false, rfl⟩

/-- The writes leave the machine halted, so the next transaction finds the same restriction. -/
theorem runAll_of_halted (ts : List Transaction) (h : s.faultValid = true)
    (hts : ∀ x ∈ ts, x ≠ .coldReset ∧ ∀ bytes, x ≠ .load bytes) :
    ∃ v key wait fbChanged, runAll ts s = .next (s.hostWrite v key wait fbChanged) := by
  induction ts generalizing s with
  | nil => exact ⟨s.v, s.key, s.wait, s.fbChanged, rfl⟩
  | cons x ts ih =>
    obtain ⟨⟨hreset, hload⟩, hrest⟩ := List.forall_mem_cons.1 hts
    obtain ⟨v, key, wait, fbChanged, hx⟩ := transact_of_halted h hreset hload
    obtain ⟨v', key', wait', fbChanged', hrun⟩ := ih (s := s.hostWrite v key wait fbChanged) h hrest
    exact ⟨v', key', wait', fbChanged', by rw [runAll, hx]; exact hrun⟩

/-- Settles O8. -/
theorem onlyAResetEndsAFault : Obligations.OnlyAResetEndsAFault := by
  intro ts s h hts
  obtain ⟨v, key, wait, fbChanged, hrun⟩ := runAll_of_halted ts h hts
  exact ⟨_, hrun, rfl, rfl, rfl, rfl, rfl, rfl, rfl, rfl⟩

/-! ### The condition of each fault (R261, R270) -/

/-- The rows of R261 that a handler raises, for the instruction `i` in the state `s`. -/
def FaultCondition (i : Instr) (s : State) : FaultCause → Prop
  | .stackOverflow => (∃ nnn, i = .call nnn) ∧ s.sp.toNat = 16
  | .stackUnderflow => (∃ x, i = .ret x) ∧ s.sp.toNat = 0
  | .addressOutOfRange => (∃ x y n, i = .drw x y n ∧ ¬SpriteReadable s n) ∨
      (∃ x, i = .ldB x ∧ 0xFFF < s.i.toNat + 2) ∨
      (∃ x, (i = .storeRegs x ∨ i = .loadRegs x) ∧ 0xFFF < s.i.toNat + x.val)
  | .fbCoordOutOfRange => ∃ x y n, i = .drw x y n ∧ SpriteReadable s n ∧ ¬SpriteOnGrid s x y n
  | .keyIndexOutOfRange => ∃ x, (i = .skp x ∨ i = .sknp x) ∧ 15 < (s.reg x).toNat

/-- No condition reads `PC`. -/
theorem faultCondition_advance : FaultCondition i s.advance c ↔ FaultCondition i s c := by cases c <;> rfl

theorem exec_of_faultCondition (h : FaultCondition i s c) : exec i s = .next (s.raise c i) := by
  cases c with
  | stackOverflow => obtain ⟨⟨nnn, rfl⟩, hsp⟩ := h; exact exec_call_of_full nnn hsp
  | stackUnderflow => obtain ⟨⟨x, rfl⟩, hsp⟩ := h; exact exec_ret_of_zero x hsp
  | addressOutOfRange =>
    obtain ⟨x, y, n, rfl, hread⟩ | ⟨x, rfl, hi⟩ | ⟨x, rfl | rfl, hi⟩ := h
    · exact exec_drw_of_unreadable x y hread
    · exact exec_ldB_of_gt x (by omega)
    · exact exec_storeRegs_of_gt hi
    · exact exec_loadRegs_of_gt hi
  | fbCoordOutOfRange => obtain ⟨x, y, n, rfl, hread, hgrid⟩ := h; exact exec_drw_of_off hread hgrid
  | keyIndexOutOfRange =>
    obtain ⟨x, rfl | rfl, hk⟩ := h
    · exact exec_skp_of_gt x hk
    · exact exec_sknp_of_gt x hk

/-- Where no condition holds, each handler that can fault passes its checks, unless `SP` is illegal and it does not
answer. -/
theorem fault_eq_of_not_faultCondition (hno : ∀ c, ¬FaultCondition i s c) (h : exec i s = .next t) :
    t.fault = s.fault := by
  obtain ⟨-, -, hcan⟩ | he := exec_next_cases h
  case inr => exact he.frame.fault_eq rfl
  obtain ⟨nnn, rfl⟩ | ⟨x, y, n, rfl⟩ | ⟨x, rfl | rfl | rfl | rfl | rfl | rfl⟩ := hcan
  · have hsp : s.sp.toNat ≠ 16 := fun hsp => hno .stackOverflow ⟨⟨nnn, rfl⟩, hsp⟩
    obtain hlt | hgt := hsp.lt_or_gt
    · rw [exec_call_of_lt nnn hlt] at h; cases h; rfl
    · rw [exec_call_of_gt nnn hgt] at h; cases h
  · have hread : SpriteReadable s n := by_contra fun hread => hno .addressOutOfRange (.inl ⟨x, y, n, rfl, hread⟩)
    have hgrid : SpriteOnGrid s x y n := by_contra fun hgrid => hno .fbCoordOutOfRange ⟨x, y, n, rfl, hread, hgrid⟩
    obtain ⟨fb, coll, -, hdraw⟩ := exec_drw_of_ok hread hgrid
    rw [hdraw] at h; cases h; rfl
  · have hsp : s.sp.toNat ≠ 0 := fun hsp => hno .stackUnderflow ⟨⟨x, rfl⟩, hsp⟩
    obtain hgt | hle := Nat.lt_or_ge 16 s.sp.toNat
    · rw [exec_ret_of_gt x hgt] at h; cases h
    · rw [exec_ret_of_le x ⟨s.sp.toNat - 1, by omega⟩ (by simp only; omega)] at h; cases h; rfl
  · have hi : ¬0xFFF < s.i.toNat + 2 := fun hi => hno .addressOutOfRange (.inr (.inl ⟨x, rfl, hi⟩))
    rw [exec_ldB_of_le x (by omega)] at h; cases h; rfl
  · have hi : ¬0xFFF < s.i.toNat + x.val := fun hi => hno .addressOutOfRange (.inr (.inr ⟨x, .inl rfl, hi⟩))
    rw [exec_storeRegs_of_le (Nat.le_of_not_lt hi)] at h; cases h; rfl
  · have hi : ¬0xFFF < s.i.toNat + x.val := fun hi => hno .addressOutOfRange (.inr (.inr ⟨x, .inr rfl, hi⟩))
    rw [exec_loadRegs_of_le (Nat.le_of_not_lt hi)] at h; cases h; rfl
  · have hk : ¬15 < (s.reg x).toNat := fun hk => hno .keyIndexOutOfRange ⟨x, .inl rfl, hk⟩
    rw [exec_skp_of_lt x ⟨_, Nat.lt_succ_of_le (Nat.le_of_not_lt hk)⟩ rfl] at h; cases h; exact s.skipIf_fault _
  · have hk : ¬15 < (s.reg x).toNat := fun hk => hno .keyIndexOutOfRange ⟨x, .inr rfl, hk⟩
    rw [exec_sknp_of_lt x ⟨_, Nat.lt_succ_of_le (Nat.le_of_not_lt hk)⟩ rfl] at h; cases h; exact s.skipIf_fault _

theorem FaultCause.code_injective {c c' : FaultCause} (h : c.code.toNat = c'.code.toNat) : c = c' := by
  revert h; cases c <;> cases c' <;> decide

theorem FaultCause.code_ne_zero (c : FaultCause) : c.code.toNat ≠ 0 := by cases c <;> decide

theorem exec_faultCode_iff (hs : s.fault = none) (h : exec i s = .next t) (c : FaultCause) :
    t.faultCode.toNat = c.code.toNat ↔ FaultCondition i s c := by
  constructor
  · intro hcode
    by_cases hsome : ∃ c', FaultCondition i s c'
    · obtain ⟨c', hc'⟩ := hsome
      rw [exec_of_faultCondition hc'] at h; cases h
      obtain rfl : c' = c := FaultCause.code_injective hcode
      exact hc'
    · have hfault : t.fault = none := (fault_eq_of_not_faultCondition (not_exists.1 hsome) h).trans hs
      rw [State.faultCode, hfault] at hcode
      exact absurd hcode.symm c.code_ne_zero
  · intro hc
    rw [exec_of_faultCondition hc] at h; cases h; rfl

theorem faultCode_ite_tick (b : Bool) : (if b then s else s.tick).faultCode = s.faultCode := by cases b <;> rfl

theorem step_faultCode_iff (hw : FetchesWord s w) (hi : decodeWord w = some i) (h : step s = .next t) (c : FaultCause) :
    t.faultCode.toNat = c.code.toNat ↔ FaultCondition i s c := by
  rw [step_of_known hw hi, finishStep_next_iff] at h
  obtain ⟨u, hu, rfl⟩ := h
  rw [faultCode_ite_tick, exec_faultCode_iff (s := s.advance) hw.running.1 hu, faultCondition_advance]

/-- Settles O21: the table is the condition of each of the five causes. -/
theorem eachFaultHasExactlyItsCondition : Obligations.EachFaultHasExactlyItsCondition := fun _ _ _ _ hw hi h =>
  have hcode := step_faultCode_iff hw hi h
  ⟨hcode .stackOverflow, hcode .stackUnderflow, hcode .addressOutOfRange, hcode .fbCoordOutOfRange,
    hcode .keyIndexOutOfRange⟩

end Sys2Proof.Machine

/-! PROOFS of the family 70_reset_and_hazards: what the cold reset leaves in every byte of memory and in every other piece
of state. -/

namespace Sys2Proof.Machine

/-- The glyphs fill 0x000 to 0x04F (10_state.md R33), and no other address holds anything after a cold reset (R39). -/
theorem coldByte_eq_ite (a : Nat) : coldByte a = if a < 80 then fontBytes.getD a 0 else 0 := by
  by_cases hfont : a < 80
  · have hrange : fontBase ≤ a ∧ a < fontBase + fontBytes.length :=
      ⟨Nat.zero_le a, hfont.trans_eq (by decide)⟩
    rw [coldByte, if_pos hrange, if_pos hfont, fontBase, Nat.sub_zero]
  · rw [coldByte_above_font a (Nat.le_of_not_lt hfont), if_neg hfont]

/-- The reset memory lists no cell, so every address reads as its cold byte. -/
theorem State.byteAt_reset (a : Nat) : State.reset.mem.byteAt a = coldByte a := rfl

/-- `ColdReset` keeps no cell of the memory before it (70_reset_and_hazards.md R290). -/
theorem State.mem_coldReset (s : State) : s.coldReset.mem = State.reset.mem := rfl

/-- `ColdReset` leaves the reset state but for the model's own two fields, which `AtReset` does not look at. -/
theorem State.atReset_coldReset (s : State) : AtReset s.coldReset := atReset_with

/-- Settles O1: both states have the empty memory list, which reads as the cold bytes. -/
theorem coldResetLeavesTheColdState : Obligations.ColdResetLeavesTheColdState := by
  have hmem (a : Nat) : State.reset.mem.byteAt a = if a < 80 then fontBytes.getD a 0 else 0 :=
    (State.byteAt_reset a).trans (coldByte_eq_ite a)
  refine ⟨fun s => ⟨s.atReset_coldReset, fun a _ => ?_⟩, atReset_reset, fun a _ => hmem a⟩
  rw [s.mem_coldReset, hmem]

end Sys2Proof.Machine
